-- ==== Sys2Proof/Word.lean ====
section
/-! DEFINITION. The block's word types (spec/00_scope.md R5, R7, R10): 64-bit words, bytes, byte strings, and the
four-word tuples the mixing core works on. -/

namespace Sys2Proof

/-- A 64-bit accumulator word, input word, counter, seed or scalar (R7). Addition of two words is `BitVec` addition:
the low 64 bits of the exact sum, the carry dropped. -/
abbrev Word := BitVec 64

/-- An 8-bit byte (R10). -/
abbrev Byte := BitVec 8

/-- A byte string: offset 0 first (R6, R10). -/
abbrev Bytes := List Byte

/-- A tuple of four words in order: the accumulators `ACC[0..3]` (R23), or the block words `B0..B3` (R91). -/
structure Quad where
  w0 : Word
  w1 : Word
  w2 : Word
  w3 : Word
deriving DecidableEq, Repr

end Sys2Proof
end

