-- ==== Sys2Proof/Config.lean ====
section
/-! DEFINITION. The block's fixed parameters (spec/00_scope.md R5: "None of them is tunable"). There is no free value:
spec/93_implementation_defined.md leaves none open. -/

namespace Sys2Proof

/-- Bytes of one block, and of the pending buffer storage (R5). -/
@[simp] abbrev Config.blockBytes : Nat := 32

/-- Rounds of one finalization (R5, R98). -/
@[simp] abbrev Config.finalRounds : Nat := 6

/-- Bytes of a snapshot (R5, R73). -/
@[simp] abbrev Config.snapshotBytes : Nat := 81

/-- Bytes of the command header on a byte-stream port: three 64-bit words (R61, R63). -/
@[simp] abbrev Config.headerBytes : Nat := 24

end Sys2Proof
end

