-- ==== Sys2Proof/Syntax.lean ====
section
/-! DEFINITION. The seven commands (spec/30_encoding.md R65) with the operands R69 gives each, and the command
descriptor (R61). LEN is no operand of its own: DATA has exactly LEN bytes (R62). -/

namespace Sys2Proof

/-- The commands: one constructor per row of spec/opcode_table.json. Only LEGAL commands are terms of this type; a
descriptor that fails R66 decodes to none of them (R68). -/
inductive Instr where
  /-- INIT (R121): construct the engine with a seed; ARG is `seed64`. -/
  | init (seed64 : Word)
  /-- ABSORB (R122): absorb the byte string DATA. -/
  | absorb (data : Bytes)
  /-- DIGEST (R130): the 256-bit digest. -/
  | digest
  /-- RESET (R135): the constructed state with the stored seed. -/
  | reset
  /-- EXPORT (R140): the 81-byte snapshot. -/
  | exportState
  /-- IMPORT (R150): restore the state from the snapshot DATA. -/
  | importState (data : Bytes)
  /-- ONESHOT (R110): the one-shot hash of DATA; ARG[31:0] is `seed32`. -/
  | oneshot (seed32 : BitVec 32) (data : Bytes)
deriving DecidableEq, Repr

/-- The command descriptor: three 64-bit words (R61). -/
structure Descriptor where
  cmd : Word
  arg : Word
  len : Word
deriving DecidableEq, Repr

/-- The data bytes a command carries (R62): none, but for ABSORB, IMPORT and ONESHOT. -/
def Instr.data : Instr → Bytes
  | .init _ => []
  | .absorb data => data
  | .digest => []
  | .reset => []
  | .exportState => []
  | .importState data => data
  | .oneshot _ data => data

end Sys2Proof
end

