-- ==== Sys2Proof/WellFormed.lean ====
section
/-! DEFINITION. When a command can stand on the port: its data length fits the 64-bit LEN word (spec/30_encoding.md
R61, "0 to 2^64 - 1"). The other operands fit by their types. -/

namespace Sys2Proof

/-- `LEN` can hold the length of this data string (R61). -/
def lenFits (data : Bytes) : Bool := decide (data.length < 2 ^ 64)

/-- A command the port can carry (R61, R62). -/
def Instr.wf : Instr → Bool
  | .init _ => true
  | .absorb data => lenFits data
  | .digest => true
  | .reset => true
  | .exportState => true
  | .importState data => lenFits data
  | .oneshot _ data => lenFits data

end Sys2Proof
end

