-- ==== Sys2Proof/Decode.lean ====
section
/-! DEFINITION. Byte order (spec/00_scope.md R11), the legality check (spec/30_encoding.md R66), the decoder from port
bytes to commands, total and rejecting by name (R67, R68), and after it the encoder (R63, R65). -/

namespace Sys2Proof

/-! ## Byte order -/

/-- The `k` low bytes of `n`, least significant first (R11). -/
def toLE : Nat → Nat → Bytes
  | 0, _ => []
  | k + 1, n => BitVec.ofNat 8 n :: toLE k (n / 256)

/-- The number a byte string stands for, least significant byte first (R11): the sum of `X[j] * 2^(8j)`. -/
def fromLE : Bytes → Nat
  | [] => 0
  | b :: bs => b.toNat + 256 * fromLE bs

/-- `Enc64(v)`: the eight bytes of a word, least significant first (R11). -/
def enc64 (v : Word) : Bytes := toLE 8 v.toNat

/-- `LE64(X, o)`: the word in the eight bytes of `X` from offset `o` (R11). Where `X` ends sooner the missing bytes
count as zero; no command reads such a word (log 10). -/
def le64 (x : Bytes) (o : Nat) : Word := BitVec.ofNat 64 (fromLE ((x.drop o).take 8))

/-- `Dec4(X)`: the four words of a 32-byte string (R11, R91). -/
def dec4 (x : Bytes) : Quad := ⟨le64 x 0, le64 x 8, le64 x 16, le64 x 24⟩

/-- `Enc4(w0, w1, w2, w3)` (R11). -/
def enc4 (q : Quad) : Bytes := enc64 q.w0 ++ enc64 q.w1 ++ enc64 q.w2 ++ enc64 q.w3

/-! ## The descriptor's fields and legality -/

/-- `OPC = CMD[7:0]` (R61). -/
def Descriptor.opc (d : Descriptor) : Byte := d.cmd.extractLsb' 0 8

/-- `RSVD = CMD[63:8]`, reserved, must be zero (R61). -/
def Descriptor.rsvd (d : Descriptor) : BitVec 56 := d.cmd.extractLsb' 8 56

/-- `ARG[63:32]`, which ONESHOT requires to be zero (R66). -/
def Descriptor.argHigh (d : Descriptor) : BitVec 32 := d.arg.extractLsb' 32 32

/-- `ARG[31:0]`, ONESHOT's seed (R69). -/
def Descriptor.argLow (d : Descriptor) : BitVec 32 := d.arg.extractLsb' 0 32

/-- `legal(CMD, ARG, LEN)`, clause by clause as R66 writes it. -/
def Descriptor.legal (d : Descriptor) : Bool :=
  d.rsvd == 0
    && (0x01 ≤ d.opc.toNat && d.opc.toNat ≤ 0x07)
    && (!(0x02 ≤ d.opc.toNat && d.opc.toNat ≤ 0x06) || d.arg == 0)
    && (!(d.opc == 0x07) || d.argHigh == 0)
    && (!(d.opc == 0x01 || d.opc == 0x03 || d.opc == 0x04 || d.opc == 0x05) || d.len == 0)

/-! ## The decoder -/

/-- Why bytes on the port decode to no command. -/
inductive DecodeError where
  /-- Fewer than 24 bytes: the header has not arrived (R63). -/
  | incompleteHeader
  /-- The header announces more data bytes than have arrived (R186). -/
  | incompleteData
  /-- The descriptor fails R66: reserved opcode, non-zero reserved bit, non-zero ARG or LEN where zero is required. -/
  | illegalCommand
deriving DecidableEq, Repr

/-- The command a complete descriptor and its data select: exactly one of the seven, or `illegalCommand` (R65, R66,
R68), with the operands of R69. -/
def decodeFrame (d : Descriptor) (data : Bytes) : Except DecodeError Instr :=
  if d.legal then
    match d.opc.toNat with
    | 0x01 => .ok (.init d.arg)
    | 0x02 => .ok (.absorb data)
    | 0x03 => .ok .digest
    | 0x04 => .ok .reset
    | 0x05 => .ok .exportState
    | 0x06 => .ok (.importState data)
    | 0x07 => .ok (.oneshot d.argLow data)
    | _ => .error .illegalCommand
  else .error .illegalCommand

/-- The header at the front of a byte stream: `Enc64(CMD) || Enc64(ARG) || Enc64(LEN)` (R63). -/
def headerOf (bytes : Bytes) : Descriptor := ⟨le64 bytes 0, le64 bytes 8, le64 bytes 16⟩

/-- The first command on a byte stream, legal or not: its descriptor, its LEN data bytes, and the bytes after them
(R62, R63). An illegal command's data bytes are taken too, so that the port stays in step (R162). -/
def splitFrame (bytes : Bytes) : Except DecodeError (Descriptor × Bytes × Bytes) :=
  if bytes.length < Config.headerBytes then .error .incompleteHeader
  else
    let d := headerOf bytes
    let after := bytes.drop Config.headerBytes
    if after.length < d.len.toNat then .error .incompleteData
    else .ok (d, after.take d.len.toNat, after.drop d.len.toNat)

/-- The first command on a byte stream and the bytes after it (R63, R68). -/
def decode (bytes : Bytes) : Except DecodeError (Instr × Bytes) :=
  match splitFrame bytes with
  | .error e => .error e
  | .ok (d, data, rest) =>
    match decodeFrame d data with
    | .error e => .error e
    | .ok i => .ok (i, rest)

/-! ## The encoder -/

/-- The opcode of each command (R65). -/
def Instr.opcode : Instr → Word
  | .init _ => 0x01
  | .absorb _ => 0x02
  | .digest => 0x03
  | .reset => 0x04
  | .exportState => 0x05
  | .importState _ => 0x06
  | .oneshot _ _ => 0x07

/-- The ARG word of each command (R65): `seed64`, `seed32` with ARG[63:32] zero, or zero. -/
def Instr.argWord : Instr → Word
  | .init seed64 => seed64
  | .absorb _ => 0
  | .digest => 0
  | .reset => 0
  | .exportState => 0
  | .importState _ => 0
  | .oneshot seed32 _ => seed32.setWidth 64

/-- The LEN word of a data string: its length as a 64-bit value (R61, R69). -/
def lenWord (data : Bytes) : Word := BitVec.ofNat 64 data.length

/-- The descriptor of a command (R61, R65). -/
def Instr.descriptor (i : Instr) : Descriptor := ⟨i.opcode, i.argWord, lenWord i.data⟩

/-- The bytes of any descriptor and data on the port (R63). -/
def encodeFrame (d : Descriptor) (data : Bytes) : Bytes :=
  enc64 d.cmd ++ enc64 d.arg ++ enc64 d.len ++ data

/-- The bytes of a command on the port (R63). -/
def encode (i : Instr) : Bytes := encodeFrame i.descriptor i.data

/-! ## An instruction's bits as one number -/

/-- The bytes of the command whose bits are the low `nbits` bits of `w`, bit 0 the least significant of CMD, ARG and
LEN counting on from it, every bit above zero: the 24 header bytes, and as many data bytes as LEN says. -/
def layoutWord (nbits w : Nat) : Bytes :=
  let v := w % 2 ^ nbits
  toLE (Config.headerBytes + v / 2 ^ 128 % 2 ^ 64) v

/-- The command the decoder reads from `layoutWord nbits w`. -/
def decodeTableWord (nbits w : Nat) : Option Instr :=
  match decode (layoutWord nbits w) with
  | .ok (i, _) => some i
  | .error _ => none

end Sys2Proof
end

