-- ==== Sys2Proof/Machine/State.lean ====
section
/-! DEFINITION. The state of one block (spec/10_state.md R22, R31), the command port around it (spec/30_encoding.md R60
to R64), the ways a step can stop, and the state after reset (spec/70_reset_and_hazards.md R180). -/

namespace Sys2Proof.Machine

/-- The five state elements of R22, "and nothing more" (R31). The widths bound `NPEND` to 0..31 (R27, R32; log 6). -/
structure Block where
  /-- `ACC[0..3]`, the accumulators (R23). -/
  acc : Quad
  /-- `BUF[0..31]`: the pending tail in `[0, NPEND)`, the last-block image in `[NPEND, 32)` (R25). -/
  buf : Vector Byte Config.blockBytes
  /-- `NPEND`: how many bytes of `BUF` are pending (R27). -/
  npend : BitVec 5
  /-- `TOTAL`: how many bytes ABSORB has taken (R28). -/
  total : Word
  /-- `SEED`: the engine's seed, kept for RESET (R29). -/
  seed : Word
deriving DecidableEq, Repr

/-- The status codes (R161). Codes 0x04 to 0xFF are never produced. -/
inductive Status where
  /-- 0x00: the command completed. -/
  | ok
  /-- 0x01, E_IMPORT_LENGTH: IMPORT with LEN < 81. -/
  | importLength
  /-- 0x02, E_IMPORT_CORRUPT: IMPORT with LEN ≥ 81 and DATA[80] ≥ 32. -/
  | importCorrupt
  /-- 0x03, E_ILLEGAL_COMMAND: the descriptor fails R66. -/
  | illegalCommand
deriving DecidableEq, Repr

/-- A response: `(STATUS, RDATA)` (R64). -/
structure Response where
  status : Status
  rdata : Bytes
deriving DecidableEq, Repr

/-- What the host does at the port, in order (R63, R181, R187). -/
inductive PortEvent where
  /-- The host delivers the next byte of the command stream. -/
  | byte (b : Byte)
  /-- The host pulses the hardware reset input (R181). Where the bytes before the pulse end a command, `inFlight` says
  on which side of that command's response the pulse falls: `true` before it (the command is abandoned), `false`
  after it. It matters nowhere else (log 5). -/
  | resetPulse (inFlight : Bool)
deriving DecidableEq, Repr

/-- One block and its command port. `rx` and `tx` are the model's own fields (log 1). -/
structure State where
  /-- The block's architectural state (R22). -/
  block : Block
  /-- What the host has put on the port and the block has not consumed, oldest first. -/
  rx : List PortEvent
  /-- The responses returned to the host, oldest first. No step reads them (R21). -/
  tx : List Response
deriving DecidableEq, Repr

/-- The stuck states. Both are SAFE: the model has no step where the hardware waits (R186). -/
inductive Fault where
  /-- Raised by `step`: the port holds some bytes of a command header, but not all 24 (R63, R186). -/
  | awaitingHeader
  /-- Raised by `step`: fewer than LEN data bytes have arrived (R186: "it has no step until the bytes arrive"). -/
  | awaitingData
deriving DecidableEq, Repr

/-- A step with no meaning. SAFE: nothing is claimed of it. -/
inductive Refusal where
  /-- Raised by an arm of `exec` whose command has no meaning yet. No arm raises it: all seven have theirs. -/
  | notModelled (mnemonic : String)
deriving DecidableEq, Repr

/-- The block after power-on or hardware reset (R180). -/
def Block.powerOn : Block :=
  { acc := ⟨0, 0, 0, 0⟩, buf := Vector.replicate Config.blockBytes 0, npend := 0, total := 0, seed := 0 }

/-- The machine right after reset: the block as R180 says, and an idle port (log 1). -/
def State.reset : State := { block := Block.powerOn, rx := [], tx := [] }

end Sys2Proof.Machine
end

