-- ==== Sys2Proof/Machine/Flags.lean ====
section
/-! DEFINITION. The block has no flags or condition codes (spec/10_state.md R21). Its one per-command outcome is the
status code: the codes, the import checks that choose one, and the response as port bytes (spec/60_exceptions.md R161,
R164; spec/30_encoding.md R64, R76). -/

namespace Sys2Proof.Machine

/-- The 8-bit code of each status (R161). -/
def Status.code : Status → Byte
  | .ok => 0x00
  | .importLength => 0x01
  | .importCorrupt => 0x02
  | .illegalCommand => 0x03

/-- The snapshot checks in their order: length first, then byte 80 as an unsigned value (R76, R151, R164). -/
def importStatus (x : Bytes) : Status :=
  if x.length < Config.snapshotBytes then .importLength
  else if 32 ≤ (x.getD 80 0).toNat then .importCorrupt
  else .ok

/-- The response on a byte-stream port: `STATUS || Enc64(len(RDATA)) || RDATA` (R64). -/
def Response.bytes (r : Response) : Bytes := r.status.code :: (enc64 (lenWord r.rdata) ++ r.rdata)

/-- Every byte the port has returned, oldest first (R64). -/
def State.txBytes (s : State) : Bytes := s.tx.flatMap Response.bytes

end Sys2Proof.Machine
end

