-- ==== Sys2Proof/Machine/Mixing.lean ====
section
/-! DEFINITION. The mixing-function pipeline (spec/40_mixing_core.md R90 to R100): rotation, the round, its inverse and
its four-stage schedule, absorption, finalization and the virtual final block. Nothing here touches the state. -/

namespace Sys2Proof.Machine

/-- `rotl(x, r)` for `0 < r < 64` (R8). -/
def rotl (x : Word) (r : Nat) : Word := (x <<< r) ||| (x >>> (64 - r))

/-- `Round(S, B, x)`: the eight steps in order, each reading what the earlier ones wrote (R92, R93). -/
def mixRound (s b : Quad) (x : Word) : Quad :=
  let s0 := s.w0 + s.w1 + b.w3
  let s1 := s0 + rotl s.w1 14 + x
  let s2 := s.w2 + s.w3 + b.w2
  let s3 := s2 + rotl s.w3 23
  let s0 := s0 + s3 + b.w1
  let s3 := s0 ^^^ rotl s3 16
  let s2 := s2 + s1 + b.w0
  let s1 := s2 ^^^ rotl s1 40
  ⟨s0, s1, s2, s3⟩

/-- `rotr(v, r) = rotl(v, 64 - r)` (R95). -/
def rotr (v : Word) (r : Nat) : Word := rotl v (64 - r)

/-- `RoundInv(S, B, x)`: the steps undone in reverse order (R95). No command uses it. -/
def roundInv (s b : Quad) (x : Word) : Quad :=
  let t1 := rotr (s.w1 ^^^ s.w2) 40
  let t2 := s.w2 - t1 - b.w0
  let t3 := rotr (s.w3 ^^^ s.w0) 16
  let t0 := s.w0 - t3 - b.w1
  let u3 := rotr (t3 - t2) 23
  let u2 := t2 - u3 - b.w2
  let u1 := rotr (t1 - t0 - x) 14
  let u0 := t0 - u1 - b.w3
  ⟨u0, u1, u2, u3⟩

/-- Stage 1 of the schedule R96 allows: steps 1 and 3 side by side, each on the stage's input. -/
def stageOne (b s : Quad) : Quad := { s with w0 := s.w0 + s.w1 + b.w3, w2 := s.w2 + s.w3 + b.w2 }

/-- Stage 2: steps 2 and 4 (R96). -/
def stageTwo (x : Word) (s : Quad) : Quad :=
  { s with w1 := s.w0 + rotl s.w1 14 + x, w3 := s.w2 + rotl s.w3 23 }

/-- Stage 3: steps 5 and 7 (R96). -/
def stageThree (b s : Quad) : Quad := { s with w0 := s.w0 + s.w3 + b.w1, w2 := s.w2 + s.w1 + b.w0 }

/-- Stage 4: steps 6 and 8 (R96). -/
def stageFour (s : Quad) : Quad := { s with w1 := s.w2 ^^^ rotl s.w1 40, w3 := s.w0 ^^^ rotl s.w3 16 }

/-- The round as four stages of two parallel operations each: (1, 3), (2, 4), (5, 7), (6, 8) (R96). -/
def roundStaged (s b : Quad) (x : Word) : Quad :=
  stageFour (stageThree b (stageTwo x (stageOne b s)))

/-- `Absorb1(S, X)`: one round over the decoded block, with no additive term (R97). -/
def absorb1 (s : Quad) (x : Bytes) : Quad := mixRound s (dec4 x) 0

/-- `n` rounds with the same block words and scalar. -/
def rounds : Nat → Quad → Quad → Word → Quad
  | 0, s, _, _ => s
  | n + 1, s, b, x => rounds n (mixRound s b x) b x

/-- `Fin6(S, B, x)`: six rounds (R98). -/
def fin6 (s b : Quad) (x : Word) : Quad := rounds Config.finalRounds s b x

/-- `VBlock(I, Y)`: the image `I` with its first bytes overwritten by the tail `Y` (R99). -/
def vblock (image tail : Bytes) : Bytes := tail ++ image.drop tail.length

/-- The 64-bit wrapping sum of four words (R110 step 5). -/
def wordSum (q : Quad) : Word := q.w0 + q.w1 + q.w2 + q.w3

/-- `zeros(k)` (R10). -/
def zeros (k : Nat) : Bytes := List.replicate k 0

end Sys2Proof.Machine
end

