-- ==== Sys2Proof/Machine/Operands.lean ====
section
/-! DEFINITION. Operand assembly (spec/30_encoding.md R69) and the snapshot format (R73 to R76). -/

namespace Sys2Proof.Machine

/-- ONESHOT's finalization scalar: `seed32` zero-extended to 64 bits (R69, decision D14). -/
def oneshotScalar (seed32 : BitVec 32) : Word := seed32.setWidth 64

/-- `byte(NPEND)`: bits 7 to 5 are zero (R75, decision D28). -/
def npendByte (n : BitVec 5) : Byte := n.setWidth 8

/-- `Snap()`: BUF, ACC0 to ACC3, SEED, TOTAL, NPEND; 81 bytes (R73, R75). -/
def snap (b : Block) : Bytes :=
  b.buf.toList ++ enc4 b.acc ++ enc64 b.seed ++ enc64 b.total ++ [npendByte b.npend]

/-- `BUF[i] <- X[i]` for i = 0..31 (R76). -/
def snapshotBuf (x : Bytes) : Vector Byte Config.blockBytes := Vector.ofFn fun i => x.getD i.val 0

/-- The block a valid snapshot decodes to; bytes from 81 on are not read (R76). -/
def unsnap (x : Bytes) : Block :=
  { acc := ⟨le64 x 32, le64 x 40, le64 x 48, le64 x 56⟩
    buf := snapshotBuf x
    npend := (x.getD 80 0).setWidth 5
    total := le64 x 72
    seed := le64 x 64 }

end Sys2Proof.Machine
end

