-- ==== Sys2Proof/Machine/Ops.lean ====
section
/-! DEFINITION. The shared operations on the state: answering a command, raising an error, construction, the hardware
reset, the byte-serial absorption and the digest. -/

namespace Sys2Proof.Machine

/-- `respond(status, bytes)`: return the response and end the command (spec/00_scope.md R12, spec/30_encoding.md R64). -/
def respond (s : State) (status : Status) (rdata : Bytes) : State :=
  { s with tx := s.tx ++ [⟨status, rdata⟩] }

/-- `raise E`: the response `(E, empty)`, and no state element written (R12, spec/60_exceptions.md R163). This is the
block's whole exception mechanism: nothing is saved, no mode changes, there is no vector and no return (R166, R167). -/
def raise (s : State) (e : Status) : Host.Outcome State Fault Refusal := .next (respond s e [])

/-- A command that completes: the block's new state and the response `(OK, rdata)` appear together (R46, R64). -/
def complete (s : State) (b : Block) (rdata : Bytes) : Host.Outcome State Fault Refusal :=
  .next (respond { s with block := b } .ok rdata)

/-- The state `Construct(seed64)` gives (spec/42_incremental.md R121). -/
def constructed (seed : Word) : Block :=
  { acc := ⟨0, 0, 0, seed⟩, buf := Vector.replicate Config.blockBytes 0, npend := 0, total := 0, seed := seed }

/-- The hardware reset: the block takes its power-on state, the port goes on with `rest`, no response is returned
(spec/70_reset_and_hazards.md R180, R181). -/
def hardwareReset (s : State) (rest : List PortEvent) : State := { s with block := Block.powerOn, rx := rest }

/-- One turn of R124's loop: the byte goes to `BUF[NPEND]`; a full buffer is absorbed as one block and stays in `BUF`
as the new last-block image. -/
def absorbByte (b : Block) (d : Byte) : Block :=
  let buf := b.buf.set b.npend.toNat d b.npend.isLt
  if b.npend.toNat + 1 = Config.blockBytes then
    { b with acc := absorb1 b.acc buf.toList, buf := buf, npend := 0 }
  else
    { b with buf := buf, npend := b.npend + 1 }

/-- R124: the bytes one at a time, in order. -/
def absorbBytes (b : Block) (data : Bytes) : Block := data.foldl absorbByte b

/-- R123: the data length joins `TOTAL`, modulo 2^64 (decision D13). -/
def addTotal (b : Block) (data : Bytes) : Block := { b with total := b.total + lenWord data }

/-- R130: the finalized copy of the accumulators, over the virtual final block that `BUF` holds (R26), with `TOTAL` as
the scalar. -/
def digestWords (b : Block) : Quad := fin6 b.acc (dec4 b.buf.toList) b.total

/-- R110 step 2: `n` complete 32-byte blocks absorbed in turn. Answers the accumulators, the image of the last block
absorbed, and the bytes not yet read. -/
def oneshotBlocks : Nat → Quad → Bytes → Bytes → Quad × Bytes × Bytes
  | 0, t, image, data => (t, image, data)
  | n + 1, t, _, data =>
    let block := data.take Config.blockBytes
    oneshotBlocks n (absorb1 t block) block (data.drop Config.blockBytes)

/-- R110 steps 1 to 5. The loop `while LEN - k >= 32` runs `LEN / 32` times. -/
def oneshotHash (seed32 : BitVec 32) (data : Bytes) : Word :=
  let (t, image, tail) :=
    oneshotBlocks (data.length / Config.blockBytes) ⟨0, 0, 0, lenWord data⟩ (zeros Config.blockBytes) data
  wordSum (fin6 t (dec4 (vblock image tail)) (oneshotScalar seed32))

end Sys2Proof.Machine
end

