-- ==== Sys2Proof/Machine/Incremental.lean ====
section
/-! DEFINITION. The incremental engine's six commands (spec/42_incremental.md). Legality (R120) is the decoder's: a term
of `Instr` is a legal command. -/

namespace Sys2Proof.Machine

/-- INIT (R121): all five elements; the response is empty. -/
def execInit (seed64 : Word) (s : State) : Host.Outcome State Fault Refusal :=
  complete s (constructed seed64) []

/-- ABSORB (R122 to R125): `TOTAL` first, then the bytes; the response counts them. -/
def execAbsorb (data : Bytes) (s : State) : Host.Outcome State Fault Refusal :=
  complete s (absorbBytes (addTotal s.block data) data) (enc64 (lenWord data))

/-- DIGEST (R130): 32 bytes; no state is written (R131). -/
def execDigest (s : State) : Host.Outcome State Fault Refusal :=
  complete s s.block (enc4 (digestWords s.block))

/-- RESET (R135): the constructed state of the stored seed. -/
def execReset (s : State) : Host.Outcome State Fault Refusal :=
  complete s (constructed s.block.seed) []

/-- EXPORT (R140): the 81-byte snapshot; no state is written. -/
def execExport (s : State) : Host.Outcome State Fault Refusal :=
  complete s s.block (snap s.block)

/-- IMPORT (R150 to R153): a valid snapshot replaces all five elements; another raises its error and writes none. -/
def execImport (data : Bytes) (s : State) : Host.Outcome State Fault Refusal :=
  match importStatus data with
  | .ok => complete s (unsnap data) []
  | e => raise s e

end Sys2Proof.Machine
end

