-- ==== Sys2Proof/Machine/Oneshot.lean ====
section
/-! DEFINITION. The one-shot engine's command (spec/41_oneshot.md). -/

namespace Sys2Proof.Machine

/-- ONESHOT (R110): the 64-bit hash as eight bytes; none of the five elements is read or written (R111). -/
def execOneshot (seed32 : BitVec 32) (data : Bytes) (s : State) : Host.Outcome State Fault Refusal :=
  complete s s.block (enc64 (oneshotHash seed32 data))

end Sys2Proof.Machine
end

