-- ==== Sys2Proof/Machine/Dispatch.lean ====
section
/-! DEFINITION. One arm per command, each one call of its meaning. -/

namespace Sys2Proof.Machine

/-- What a command does: the one place where a command meets its meaning. -/
def exec (i : Instr) (s : State) : Host.Outcome State Fault Refusal :=
  match i with
  | .init seed64 => Sys2Proof.Machine.execInit seed64 s
  | .absorb data => Sys2Proof.Machine.execAbsorb data s
  | .digest => Sys2Proof.Machine.execDigest s
  | .reset => Sys2Proof.Machine.execReset s
  | .exportState => Sys2Proof.Machine.execExport s
  | .importState data => Sys2Proof.Machine.execImport data s
  | .oneshot seed32 data => Sys2Proof.Machine.execOneshot seed32 data s

end Sys2Proof.Machine
end

