-- ==== Sys2Proof/Machine/Port.lean ====
section
/-! DEFINITION. The command port (spec/30_encoding.md R60 to R63; spec/70_reset_and_hazards.md R181, R184, R186): what
stands at its front, and so what the next step does. -/

namespace Sys2Proof.Machine

/-- The bytes at the front of the port, up to the first reset pulse. -/
def leadingBytes : List PortEvent → Bytes
  | .byte b :: more => b :: leadingBytes more
  | _ => []

/-- What follows those bytes: nothing, or a reset pulse and what comes after it. -/
def afterBytes : List PortEvent → List PortEvent
  | .byte _ :: more => afterBytes more
  | rest => rest

/-- Bytes as the host delivers them. -/
def portBytes (bytes : Bytes) : List PortEvent := bytes.map .byte

/-- What stands at the front of the port. -/
inductive Fetched where
  /-- Nothing: the block is idle and waits for the next command (R173, R184). -/
  | idle
  /-- Part of a command, and nothing after it: the block waits for the missing bytes (R186). -/
  | waiting (reason : Fault)
  /-- A hardware reset that finds the block idle or abandons the command in progress (R181); `rest` is what the host
  does after it. -/
  | resetPulse (rest : List PortEvent)
  /-- A whole command, legal or not (R62, R63); `rest` is what stands behind it. -/
  | command (d : Descriptor) (data : Bytes) (rest : List PortEvent)
deriving DecidableEq, Repr

/-- The fault that says what the port waits for. `splitFrame`, the one caller's source, never answers
`illegalCommand`: a whole frame is legal or not only once it is taken. -/
def waitFault : DecodeError → Fault
  | .incompleteHeader => .awaitingHeader
  | .incompleteData => .awaitingData
  | .illegalCommand => .awaitingData

/-- What stands at the front of the port. A pulse with `inFlight` right behind a command's last byte abandons that
command (R181; log 5); any pulse abandons a command whose bytes have not all arrived. -/
def fetch (rx : List PortEvent) : Fetched :=
  match splitFrame (leadingBytes rx) with
  | .ok (d, data, more) =>
    match more, afterBytes rx with
    | [], .resetPulse true :: rest => .resetPulse rest
    | _, after => .command d data (portBytes more ++ after)
  | .error e =>
    match afterBytes rx with
    | .resetPulse _ :: rest => .resetPulse rest
    | _ => if leadingBytes rx = [] then .idle else .waiting (waitFault e)

/-- A whole command taken from the port: its meaning where it decodes (R68), else E_ILLEGAL_COMMAND, its data thrown
away (R162). `run` is the meaning of a decoded command. -/
def serve (run : Instr → State → Host.Outcome State Fault Refusal) (d : Descriptor) (data : Bytes) (s : State) :
    Host.Outcome State Fault Refusal :=
  match decodeFrame d data with
  | .ok i => run i s
  | .error _ => raise s .illegalCommand

end Sys2Proof.Machine
end

