-- ==== Sys2Proof/Machine/Step.lean ====
section
/-! DEFINITION. One step of the machine: one host event, or one whole command with its response (spec/20_memory.md R46,
R48; spec/70_reset_and_hazards.md R184). -/

namespace Sys2Proof.Machine

/-- One step: idle (nothing changes), a hardware reset, one command, or stuck until bytes arrive (R186). -/
def step (s : State) : Host.Outcome State Fault Refusal :=
  match fetch s.rx with
  | .idle => .next s
  | .waiting reason => .fault reason
  | .resetPulse rest => .next (hardwareReset s rest)
  | .command d data rest => serve exec d data { s with rx := rest }

/-- The state with one command's bytes on the port, and nothing else there: the host has delivered exactly that command
(log 2). -/
def State.withFetchWord (s : State) (nbits w : Nat) : State := { s with rx := portBytes (layoutWord nbits w) }

end Sys2Proof.Machine
end

