-- ==== Sys2Proof/Machine/Assembler.lean ====
section
/-! DEFINITION. The spec's notation for commands (spec/30_encoding.md R71) and its pseudo-commands (R72): the lines, what
they assemble to, and the reader of their text (log 12 says what the text's details rest on). -/

namespace Sys2Proof.Machine

/-- `<bytes>`: one of the five forms, or two joined by `++` (R71). -/
inductive ByteExpr where
  | hex (bytes : Bytes)
  | zeros (n : Nat)
  | seq (a n : Nat)
  | fill (v : Byte) (n : Nat)
  | ascii (text : List Char)
  | join (x y : ByteExpr)
deriving DecidableEq, Repr

/-- The bytes an expression stands for (R71). -/
def ByteExpr.bytes : ByteExpr → Bytes
  | .hex bytes => bytes
  | .zeros n => Machine.zeros n
  | .seq a n => (List.range n).map fun i => BitVec.ofNat 8 (a + i)
  | .fill v n => List.replicate n v
  | .ascii text => text.map fun c => BitVec.ofNat 8 c.toNat
  | .join x y => x.bytes ++ y.bytes

/-- A line: a command, a raw opcode (R71) or a pseudo-command (R72). -/
inductive AsmLine where
  | init (seed64 : Word)
  | absorb (e : ByteExpr)
  | digest
  | reset
  | exportState
  | importState (e : ByteExpr)
  | oneshot (seed32 : BitVec 32) (e : ByteExpr)
  | rawWord (opc : Byte)
  | hash256 (seed64 : Word) (e : ByteExpr)
  | hash64 (seed32 : BitVec 32) (e : ByteExpr)
  | rehash (e : ByteExpr)
  | suspend
  | resume (e : ByteExpr)
deriving DecidableEq, Repr

/-- R72's expansions; every other line stands for itself. -/
def AsmLine.expand : AsmLine → List AsmLine
  | .hash256 seed64 e => [.init seed64, .absorb e, .digest]
  | .hash64 seed32 e => [.oneshot seed32 e]
  | .rehash e => [.reset, .absorb e, .digest]
  | .suspend => [.exportState]
  | .resume e => [.importState e]
  | .init seed64 => [.init seed64]
  | .absorb e => [.absorb e]
  | .digest => [.digest]
  | .reset => [.reset]
  | .exportState => [.exportState]
  | .importState e => [.importState e]
  | .oneshot seed32 e => [.oneshot seed32 e]
  | .rawWord opc => [.rawWord opc]

/-- The descriptor and data of a command, as one frame (R61, R62). -/
def frameOf (i : Instr) : Descriptor × Bytes := (i.descriptor, i.data)

/-- The frames of a line that is no pseudo-command (R71); a pseudo-command has no encoding of its own (R72). -/
def AsmLine.frame : AsmLine → List (Descriptor × Bytes)
  | .init seed64 => [frameOf (.init seed64)]
  | .absorb e => [frameOf (.absorb e.bytes)]
  | .digest => [frameOf .digest]
  | .reset => [frameOf .reset]
  | .exportState => [frameOf .exportState]
  | .importState e => [frameOf (.importState e.bytes)]
  | .oneshot seed32 e => [frameOf (.oneshot seed32 e.bytes)]
  | .rawWord opc => [(⟨opc.setWidth 64, 0, 0⟩, [])]
  | .hash256 _ _ => []
  | .hash64 _ _ => []
  | .rehash _ => []
  | .suspend => []
  | .resume _ => []

/-- The frames a line assembles to, in order (R71, R72). -/
def AsmLine.assemble (line : AsmLine) : List (Descriptor × Bytes) := line.expand.flatMap AsmLine.frame

/-! ## Reading the text of a line -/

/-- Spaces and tabs at the front are skipped. -/
def skipSpaces (cs : List Char) : List Char := cs.dropWhile fun c => c == ' ' || c == '\t'

/-- What follows the characters `k`, if they stand at the front. -/
def afterText : List Char → List Char → Option (List Char)
  | [], cs => some cs
  | k :: ks, c :: cs => if k = c then afterText ks cs else none
  | _ :: _, [] => none

/-- What follows a mark, spaces before it skipped. -/
def afterMark (k : String) (cs : List Char) : Option (List Char) := afterText k.toList (skipSpaces cs)

/-- A character between two others, counted from the first. -/
def charOffset (first last : Char) (c : Char) : Option Nat :=
  if first.toNat ≤ c.toNat && c.toNat ≤ last.toNat then some (c.toNat - first.toNat) else none

/-- A hexadecimal digit's value, in either case. -/
def hexDigit (c : Char) : Option Nat :=
  charOffset '0' '9' c <|> (charOffset 'a' 'f' c).map (· + 10) <|> (charOffset 'A' 'F' c).map (· + 10)

/-- The digits at the front, read on from `acc` in the given base. -/
def digits (base : Nat) (value : Char → Option Nat) : Nat → List Char → Nat × List Char
  | acc, [] => (acc, [])
  | acc, c :: cs =>
    match value c with
    | some v => digits base value (acc * base + v) cs
    | none => (acc, c :: cs)

/-- A number of at least one digit. -/
def number (base : Nat) (value : Char → Option Nat) : List Char → Option (Nat × List Char)
  | [] => none
  | c :: cs => (value c).map fun v => digits base value v cs

/-- A decimal or `0x`-prefixed hexadecimal integer below `bound` (R71: integers "that fit the width"). -/
def readInt (bound : Nat) (cs : List Char) : Option (Nat × List Char) := do
  let (n, rest) ← match afterMark "0x" cs with
    | some digits => number 16 hexDigit digits
    | none => number 10 (charOffset '0' '9') (skipSpaces cs)
  if n < bound then some (n, rest) else none

/-- Hex pairs up to the closing quote, first pair at offset 0 (R71). -/
def readHexPairs : List Char → Option (Bytes × List Char)
  | '"' :: rest => some ([], rest)
  | h :: l :: rest => do
    let hi ← hexDigit h
    let lo ← hexDigit l
    let (bytes, after) ← readHexPairs rest
    some (BitVec.ofNat 8 (16 * hi + lo) :: bytes, after)
  | _ => none

/-- ASCII text up to the closing quote (R71). -/
def readAscii : List Char → Option (List Char × List Char)
  | '"' :: rest => some ([], rest)
  | c :: rest => do
    let (text, after) ← readAscii rest
    if c.toNat < 128 then some (c :: text, after) else none
  | [] => none

/-- `(n)`, with no bound on `n` but the bound given. -/
def readOne (bound : Nat) (cs : List Char) : Option (Nat × List Char) := do
  let cs ← afterMark "(" cs
  let (n, cs) ← readInt bound cs
  let cs ← afterMark ")" cs
  some (n, cs)

/-- `(v, n)`, with `v` below the bound given. -/
def readTwo (bound : Nat) (cs : List Char) : Option (Nat × Nat × List Char) := do
  let cs ← afterMark "(" cs
  let (v, cs) ← readInt bound cs
  let cs ← afterMark "," cs
  let (n, cs) ← readInt (2 ^ 64) cs
  let cs ← afterMark ")" cs
  some (v, n, cs)

/-- `x"…"` (R71). -/
def readHexForm (cs : List Char) : Option (ByteExpr × List Char) := do
  let cs ← afterMark "x\"" cs
  let (bytes, cs) ← readHexPairs cs
  some (.hex bytes, cs)

/-- `zeros(n)` (R71). -/
def readZerosForm (cs : List Char) : Option (ByteExpr × List Char) := do
  let cs ← afterMark "zeros" cs
  let (n, cs) ← readOne (2 ^ 64) cs
  some (.zeros n, cs)

/-- `seq(a, n)` (R71). -/
def readSeqForm (cs : List Char) : Option (ByteExpr × List Char) := do
  let cs ← afterMark "seq" cs
  let (a, n, cs) ← readTwo (2 ^ 64) cs
  some (.seq a n, cs)

/-- `fill(v, n)`, the value a byte (R71). -/
def readFillForm (cs : List Char) : Option (ByteExpr × List Char) := do
  let cs ← afterMark "fill" cs
  let (v, n, cs) ← readTwo 256 cs
  some (.fill (BitVec.ofNat 8 v) n, cs)

/-- `ascii("text")` (R71). -/
def readAsciiForm (cs : List Char) : Option (ByteExpr × List Char) := do
  let cs ← afterMark "ascii" cs
  let cs ← afterMark "(" cs
  let cs ← afterMark "\"" cs
  let (text, cs) ← readAscii cs
  let cs ← afterMark ")" cs
  some (.ascii text, cs)

/-- One of the five forms (R71). -/
def readForm (cs : List Char) : Option (ByteExpr × List Char) :=
  readHexForm cs <|> readZerosForm cs <|> readSeqForm cs <|> readFillForm cs <|> readAsciiForm cs

/-- Forms joined by `++`, at most `fuel` of them, and nothing after them (R71). -/
def readBytes : Nat → List Char → Option ByteExpr
  | 0, _ => none
  | fuel + 1, cs => do
    let (x, cs) ← readForm cs
    match afterMark "++" cs with
    | some more => (readBytes fuel more).map (.join x)
    | none => if skipSpaces cs = [] then some x else none

/-- An operand field that is one integer. -/
def intOperand (bound : Nat) (cs : List Char) : Option Nat := do
  let (n, cs) ← readInt bound cs
  if skipSpaces cs = [] then some n else none

/-- An operand field that is `<bytes>`: no more forms than characters. -/
def bytesOperand (cs : List Char) : Option ByteExpr := readBytes cs.length cs

/-- An operand field that is an integer, a comma and `<bytes>`. -/
def intBytesOperand (bound : Nat) (cs : List Char) : Option (Nat × ByteExpr) := do
  let (n, cs) ← readInt bound cs
  let cs ← afterMark "," cs
  let e ← bytesOperand cs
  some (n, e)

/-- An operand field that is empty. -/
def noOperand (cs : List Char) (line : AsmLine) : Option AsmLine :=
  if skipSpaces cs = [] then some line else none

/-- One line's text: the word up to the first space names the line, the rest is its operand field (R71, R72). -/
def readLine (text : String) : Option AsmLine :=
  let cs := skipSpaces text.toList
  let name := cs.takeWhile fun c => !(c == ' ' || c == '\t')
  let field := cs.dropWhile fun c => !(c == ' ' || c == '\t')
  if name = "INIT".toList then (intOperand (2 ^ 64) field).map fun n => .init (BitVec.ofNat 64 n)
  else if name = "ABSORB".toList then (bytesOperand field).map .absorb
  else if name = "DIGEST".toList then noOperand field .digest
  else if name = "RESET".toList then noOperand field .reset
  else if name = "EXPORT".toList then noOperand field .exportState
  else if name = "IMPORT".toList then (bytesOperand field).map .importState
  else if name = "ONESHOT".toList then
    (intBytesOperand (2 ^ 32) field).map fun p => .oneshot (BitVec.ofNat 32 p.1) p.2
  else if name = ".word".toList then (intOperand (2 ^ 8) field).map fun n => .rawWord (BitVec.ofNat 8 n)
  else if name = "HASH256".toList then
    (intBytesOperand (2 ^ 64) field).map fun p => .hash256 (BitVec.ofNat 64 p.1) p.2
  else if name = "HASH64".toList then
    (intBytesOperand (2 ^ 32) field).map fun p => .hash64 (BitVec.ofNat 32 p.1) p.2
  else if name = "REHASH".toList then (bytesOperand field).map .rehash
  else if name = "SUSPEND".toList then noOperand field .suspend
  else if name = "RESUME".toList then (bytesOperand field).map .resume
  else none

/-- The frames a line of text assembles to (R71, R72). -/
def assembleText (text : String) : Option (List (Descriptor × Bytes)) := (readLine text).map AsmLine.assemble

end Sys2Proof.Machine
end

