-- ==== Sys2Proof/Machine/Reference.lean ====
section
/-! DEFINITION. The engine as PH words it (spec/42_incremental.md R121 to R155, R126; spec/10_state.md R25, R26): a
pending tail and a last-absorbed-block cache kept apart, input taken block by block; and the one-shot engine by buffer
offsets (spec/41_oneshot.md R110). The machine does not use it; claims compare the machine with it. -/

namespace Sys2Proof.Machine

/-- PH's engine: accumulators, pending tail, decoded words of the last absorbed block, length counter, seed. -/
structure PhEngine where
  acc : Quad
  tail : Bytes
  cache : Quad
  total : Word
  seed : Word
deriving DecidableEq, Repr

/-- PH's Construct(seed64) (R121). -/
def phConstruct (seed : Word) : PhEngine :=
  { acc := ⟨0, 0, 0, seed⟩, tail := [], cache := ⟨0, 0, 0, 0⟩, total := 0, seed := seed }

/-- A completed block "is absorbed (mixing core, no extra64, and the decoded words become the new last-block cache)"
(R126). -/
def phBlock (e : PhEngine) (x : Bytes) : PhEngine := { e with acc := absorb1 e.acc x, cache := dec4 x }

/-- "remaining input is then consumed 32 bytes at a time", `n` blocks of it, and "any leftover < 32 bytes becomes the
new pending tail" (R126). -/
def phBlocks : Nat → PhEngine → Bytes → PhEngine
  | 0, e, leftover => { e with tail := leftover }
  | n + 1, e, data =>
    phBlocks n (phBlock e (data.take Config.blockBytes)) (data.drop Config.blockBytes)

/-- PH's Absorb on the tail and the cache (R126), with conflict C6's reading of a fill that completes no block. -/
def phFeed (e : PhEngine) (data : Bytes) : PhEngine :=
  if e.tail = [] then phBlocks (data.length / Config.blockBytes) e data
  else
    let need := Config.blockBytes - e.tail.length
    if data.length < need then { e with tail := e.tail ++ data }
    else
      phBlocks ((data.length - need) / Config.blockBytes) (phBlock e (e.tail ++ data.take need)) (data.drop need)

/-- PH's virtual final block: the tail over the byte image of the cache (R26, R99). -/
def phVirtual (e : PhEngine) : Bytes := vblock (enc4 e.cache) e.tail

/-- PH's ExportState, with the remainder of the tail buffer holding the cache bytes (R74, R75; conflict C3). -/
def phExport (e : PhEngine) : Bytes :=
  phVirtual e ++ enc4 e.acc ++ enc64 e.seed ++ enc64 e.total ++ [BitVec.ofNat 8 e.tail.length]

/-- PH's ImportState of a valid snapshot: the tail is the first `n` bytes, the cache the block the snapshot carries
(R76, R155). -/
def phImport (x : Bytes) : PhEngine :=
  { acc := dec4 (x.drop 32), tail := x.take (x.getD 80 0).toNat, cache := dec4 x, total := le64 x 72, seed := le64 x 64 }

/-- The one-shot engine's accumulators and the decoded words of the last absorbed block after its first `m` blocks; block
`m` is bytes `32 m` to `32 m + 31` of the buffer (R110 steps 1 and 2). -/
def phOneshotAfter (data : Bytes) : Nat → Quad × Quad
  | 0 => (⟨0, 0, 0, lenWord data⟩, ⟨0, 0, 0, 0⟩)
  | m + 1 =>
    let x := (data.drop (Config.blockBytes * m)).take Config.blockBytes
    (absorb1 (phOneshotAfter data m).1 x, dec4 x)

/-- PH's one-shot hash: the bytes behind the last whole block overlay that block's image, then six rounds and the sum
(R110 steps 3 to 5). -/
def phOneshot (seed32 : BitVec 32) (data : Bytes) : Word :=
  let m := data.length / Config.blockBytes
  let (t, cache) := phOneshotAfter data m
  wordSum (fin6 t (dec4 (vblock (enc4 cache) (data.drop (Config.blockBytes * m)))) (BitVec.ofNat 64 seed32.toNat))

/-- What each command answers and leaves, said of PH's engine (R110 to R155). -/
def phRun (e : PhEngine) : Instr → Response × PhEngine
  | .init seed => (⟨.ok, []⟩, phConstruct seed)
  | .absorb data => (⟨.ok, enc64 (lenWord data)⟩, phFeed { e with total := e.total + lenWord data } data)
  | .digest => (⟨.ok, enc4 (fin6 e.acc (dec4 (phVirtual e)) e.total)⟩, e)
  | .reset => (⟨.ok, []⟩, phConstruct e.seed)
  | .exportState => (⟨.ok, phExport e⟩, e)
  | .importState data =>
    if data.length < Config.snapshotBytes then (⟨.importLength, []⟩, e)
    else if 32 ≤ (data.getD 80 0).toNat then (⟨.importCorrupt, []⟩, e)
    else (⟨.ok, []⟩, phImport data)
  | .oneshot seed32 data => (⟨.ok, enc64 (phOneshot seed32 data)⟩, e)

/-- R25: `BUF` holds the tail over the cache's byte image, `NPEND` counts the tail, the rest is equal. -/
def Represents (e : PhEngine) (b : Block) : Prop :=
  e.tail.length < Config.blockBytes ∧ b.npend.toNat = e.tail.length ∧ b.buf.toList = phVirtual e
    ∧ b.acc = e.acc ∧ b.total = e.total ∧ b.seed = e.seed

end Sys2Proof.Machine
end

