-- ==== Sys2Proof/Safety.lean ====
section
/-! DEFINITION. The terms claims use: runs of commands, whole commands on the port, and what a response may look like. -/

namespace Sys2Proof.Machine

/-- A sequence of commands, each taking effect after the ones before it (spec/20_memory.md R48). -/
def execAll : List Instr → State → Host.Outcome State Fault Refusal
  | [], s => .next s
  | i :: more, s =>
    match exec i s with
    | .next t => execAll more t
    | .fault r => .fault r
    | .refused r => .refused r

/-- A frame whose data the host delivers in full (spec/70_reset_and_hazards.md R187). -/
def Delivered (f : Descriptor × Bytes) : Prop := f.2.length = f.1.len.toNat

/-- The port bytes of a list of frames, one after the other (spec/30_encoding.md R63). -/
def streamOf (frames : List (Descriptor × Bytes)) : Bytes := frames.flatMap fun f => encodeFrame f.1 f.2

/-- No reset pulse falls before the response of the command that ends where `rest` begins (R181; log 5). -/
def NoPulseInFlight (rest : List PortEvent) : Prop := rest.head? ≠ some (.resetPulse true)

/-- What R64 and R65 allow a response to be: RDATA empty unless the status is OK, and one of the lengths of R65. -/
def Response.Sound (r : Response) : Prop :=
  (r.status ≠ .ok → r.rdata = []) ∧ r.rdata.length ∈ [0, 8, 32, 81]

/-- Every response returned so far is one the block may give. -/
def ResponsesSound (s : State) : Prop := ∀ r ∈ s.tx, r.Sound

/-- How many RDATA bytes each command returns on OK (R65). -/
def rdataLength : Instr → Nat
  | .init _ => 0
  | .absorb _ => 8
  | .digest => 32
  | .reset => 0
  | .exportState => 81
  | .importState _ => 0
  | .oneshot _ _ => 8

/-- The commands that write no state element (R22, R47). -/
def WritesNoState : Instr → Prop
  | .init _ => False
  | .absorb _ => False
  | .digest => True
  | .reset => False
  | .exportState => True
  | .importState _ => False
  | .oneshot _ _ => True

/-- `TOTAL mod 32 = NPEND` (spec/10_state.md R33): true as long as no valid IMPORT has come. -/
def InStep (b : Block) : Prop := b.total.toNat % 32 = b.npend.toNat

/-- An IMPORT whose snapshot the block takes (spec/42_incremental.md R151). -/
def ValidImport (i : Instr) : Prop := ∃ x, i = .importState x ∧ importStatus x = .ok

/-- The command at the front of the port is such an IMPORT. -/
def ServesValidImport (s : State) : Prop :=
  ∃ d data rest i, fetch s.rx = .command d data rest ∧ decodeFrame d data = .ok i ∧ ValidImport i

/-- A step that the machine takes: neither stuck nor refused. -/
def Runs (s : State) : Prop := ∃ t, step s = .next t

end Sys2Proof.Machine
end

