-- ==== Sys2Proof/Certificates/Slice0/Obligations.lean ====
section
/-! DEFINITION. The statements for the provers. Each docstring names the rules of spec/ it rests on. -/

open Sys2Proof Sys2Proof.Machine

/-! ## Encoding and decoding -/

/-- R61, R63, R65, R69: the bytes of any command the port can carry decode to that command, whatever follows them. -/
def Obligations.DecodeOfEncodeIsTheCommand : Prop :=
  ∀ (i : Instr) (rest : Bytes), i.wf = true → decode (encode i ++ rest) = .ok (i, rest)

/-- R63, R68: bytes that decode to a command are that command's bytes and what was left over; no other bytes stand for
it. -/
def Obligations.DecodedBytesAreTheCommandsEncoding : Prop :=
  ∀ (bytes rest : Bytes) (i : Instr), decode bytes = .ok (i, rest) → i.wf = true ∧ bytes = encode i ++ rest

/-- R66, R67, R68 and the match column of opcode_table.json: a descriptor is legal exactly when CMD is one of the seven
match words and ARG and LEN meet that row's constraints; a legal one decodes, any other is E_ILLEGAL_COMMAND. -/
def Obligations.LegalDescriptorsAreTheSevenRows : Prop :=
  ∀ (d : Descriptor) (data : Bytes),
    (d.legal = true ↔
      (d.cmd = 1 ∧ d.len = 0) ∨ (d.cmd = 2 ∧ d.arg = 0) ∨ (d.cmd = 3 ∧ d.arg = 0 ∧ d.len = 0)
        ∨ (d.cmd = 4 ∧ d.arg = 0 ∧ d.len = 0) ∨ (d.cmd = 5 ∧ d.arg = 0 ∧ d.len = 0)
        ∨ (d.cmd = 6 ∧ d.arg = 0) ∨ (d.cmd = 7 ∧ d.arg.toNat < 2 ^ 32))
    ∧ (d.legal = true → ∃ i, decodeFrame d data = .ok i)
    ∧ (d.legal = false → decodeFrame d data = .error .illegalCommand)

/-- R65, R69: each of the seven descriptors selects its command, with the operands assembled from ARG and DATA; the
ONESHOT scalar has the value of `seed32`. -/
def Obligations.DescriptorsSelectTheirOperands : Prop :=
  ∀ (arg len : Word) (seed32 : BitVec 32) (data : Bytes),
    decodeFrame ⟨1, arg, 0⟩ [] = .ok (.init arg)
    ∧ decodeFrame ⟨2, 0, len⟩ data = .ok (.absorb data)
    ∧ decodeFrame ⟨3, 0, 0⟩ [] = .ok .digest
    ∧ decodeFrame ⟨4, 0, 0⟩ [] = .ok .reset
    ∧ decodeFrame ⟨5, 0, 0⟩ [] = .ok .exportState
    ∧ decodeFrame ⟨6, 0, len⟩ data = .ok (.importState data)
    ∧ decodeFrame ⟨7, BitVec.ofNat 64 seed32.toNat, len⟩ data = .ok (.oneshot seed32 data)
    ∧ (oneshotScalar seed32).toNat = seed32.toNat

/-- R63 and spec/95_test_vectors.md section 3: headers written out byte by byte decode to the commands they stand for,
and a reserved opcode to none. -/
def Obligations.WrittenHeadersDecode : Prop :=
  decode [0x01, 0, 0, 0, 0, 0, 0, 0, 0x27, 0, 0, 0, 0, 0, 0, 0, 0, 0, 0, 0, 0, 0, 0, 0] = .ok (.init 39, [])
    ∧ decode [0x03, 0, 0, 0, 0, 0, 0, 0, 0, 0, 0, 0, 0, 0, 0, 0, 0, 0, 0, 0, 0, 0, 0, 0] = .ok (.digest, [])
    ∧ decode [0x07, 0, 0, 0, 0, 0, 0, 0, 0x27, 0, 0, 0, 0, 0, 0, 0, 2, 0, 0, 0, 0, 0, 0, 0, 0xaa, 0xbb, 0xcc]
        = .ok (.oneshot 39 [0xaa, 0xbb], [0xcc])
    ∧ decode [0x08, 0, 0, 0, 0, 0, 0, 0, 0, 0, 0, 0, 0, 0, 0, 0, 0, 0, 0, 0, 0, 0, 0, 0] = .error .illegalCommand

/-! ## The step and the port -/

/-- R48, R60, R63: where a command's bytes stand at the front of the port and no reset pulse falls before its response
(log 5), the step is the command's meaning on the state with those bytes consumed. -/
def Obligations.StepRunsTheDecodedCommand : Prop :=
  ∀ (s : State) (i : Instr) (rest : List PortEvent),
    i.wf = true → NoPulseInFlight rest → s.rx = portBytes (encode i) ++ rest →
      step s = exec i { s with rx := rest }

/-- R163: a command that raises any error writes no state element, and its response is the code with an empty string:
an illegal command from the port (R162: its data bytes are taken and thrown away) and a failing IMPORT. -/
def Obligations.ErrorsWriteNoStateElement : Prop :=
  (∀ (s : State) (d : Descriptor) (data : Bytes) (rest : List PortEvent),
    d.legal = false → Delivered (d, data) → NoPulseInFlight rest →
      s.rx = portBytes (encodeFrame d data) ++ rest →
      step s = .next { s with rx := rest, tx := s.tx ++ [⟨.illegalCommand, []⟩] })
  ∧ (∀ (s : State) (data : Bytes), importStatus data ≠ .ok →
      exec (.importState data) s = .next { s with tx := s.tx ++ [⟨importStatus data, []⟩] })

/-- R161: the status codes, and no two statuses share one. -/
def Obligations.StatusCodesAreDistinct : Prop :=
  Status.code .ok = 0x00 ∧ Status.code .importLength = 0x01 ∧ Status.code .importCorrupt = 0x02
    ∧ Status.code .illegalCommand = 0x03 ∧ ∀ a b : Status, Status.code a = Status.code b → a = b

/-- R164: an IMPORT descriptor with a non-zero ARG is E_ILLEGAL_COMMAND whatever its data holds; the import checks run
only for a legal IMPORT, length before corruption. -/
def Obligations.IllegalWinsOverImportErrors : Prop :=
  ∀ (s : State) (arg : Word) (data : Bytes),
    (arg ≠ 0 → serve exec ⟨6, arg, lenWord data⟩ data s = .next { s with tx := s.tx ++ [⟨.illegalCommand, []⟩] })
    ∧ (data.length < 81 →
        serve exec ⟨6, 0, lenWord data⟩ data s = .next { s with tx := s.tx ++ [⟨.importLength, []⟩] })
    ∧ (81 ≤ data.length → 32 ≤ (data.getD 80 0).toNat →
        serve exec ⟨6, 0, lenWord data⟩ data s = .next { s with tx := s.tx ++ [⟨.importCorrupt, []⟩] })

/-- R186, R63: bytes that begin a command and do not end it leave the machine stuck. That a partial header is stuck too,
and that with no byte at all the step is an idle one, are the model's readings (log 3, log 4). -/
def Obligations.ShortDeliveryIsStuck : Prop :=
  ∀ (s : State) (bytes : Bytes), s.rx = portBytes bytes →
    (bytes = [] → step s = .next s)
    ∧ (bytes ≠ [] → bytes.length < 24 → step s = .fault .awaitingHeader)
    ∧ (24 ≤ bytes.length → bytes.length < 24 + (headerOf bytes).len.toNat → step s = .fault .awaitingData)

/-- R160, R176, R186: the machine takes a step in every state but one where part of a command stands on the port with
nothing behind it; it never refuses. That a partial header is stuck and an idle step is a next state is the model's
reading (log 3, log 4). -/
def Obligations.OnlyShortDeliveryStopsTheMachine : Prop :=
  ∀ s : State,
    (Runs s ↔ ¬ (afterBytes s.rx = [] ∧ leadingBytes s.rx ≠ []
      ∧ ((leadingBytes s.rx).length < 24
          ∨ (leadingBytes s.rx).length < 24 + (headerOf (leadingBytes s.rx)).len.toNat)))
    ∧ ∀ r, step s ≠ .refused r

/-- R181, with the model's choice of log 5 for a pulse behind a command's last byte: a reset pulse abandons the command
in progress. No response is returned and the block takes its power-on state. -/
def Obligations.HardwareResetAbandonsTheCommand : Prop :=
  (∀ (s : State) (bytes : Bytes) (inFlight : Bool) (rest : List PortEvent),
    s.rx = portBytes bytes ++ .resetPulse inFlight :: rest →
    (bytes.length < 24 ∨ bytes.length < 24 + (headerOf bytes).len.toNat) →
      step s = .next { block := Block.powerOn, rx := rest, tx := s.tx })
  ∧ (∀ (s : State) (d : Descriptor) (data : Bytes) (rest : List PortEvent),
    Delivered (d, data) → s.rx = portBytes (encodeFrame d data) ++ .resetPulse true :: rest →
      step s = .next { block := Block.powerOn, rx := rest, tx := s.tx })

/-- R182: RESET keeps SEED and returns a response; the hardware reset sets SEED to 0 and returns nothing. That a reset
pulse is an element of the port, and the step goes on with what stands behind it, is the model's choice (log 5). -/
def Obligations.ResetCommandIsNotTheHardwareReset : Prop :=
  ∀ (s : State) (inFlight : Bool) (rest : List PortEvent),
    (∃ t, exec .reset s = .next t ∧ t.block.seed = s.block.seed ∧ t.tx.length = s.tx.length + 1 ∧ t.rx = s.rx)
    ∧ (∃ t, step { s with rx := .resetPulse inFlight :: rest } = .next t ∧ t.block.seed = 0 ∧ t.tx = s.tx
        ∧ t.rx = rest)

/-- R180: the state after power-on, which is the state `INIT 0` gives and the state the hardware reset gives, and in
which the block is idle. That the port is empty at reset is the model's choice (log 1), that an idle step is a next
state its reading (log 4), and that a reset pulse is an element of the port its choice (log 5). -/
def Obligations.PowerOnState : Prop :=
  State.reset.block.acc = ⟨0, 0, 0, 0⟩ ∧ State.reset.block.buf.toList = zeros 32 ∧ State.reset.block.npend = 0
    ∧ State.reset.block.total = 0 ∧ State.reset.block.seed = 0 ∧ step State.reset = .next State.reset
    ∧ (∀ s, exec (.init 0) s = .next { s with block := State.reset.block, tx := s.tx ++ [⟨.ok, []⟩] })
    ∧ (∀ (s : State) (inFlight : Bool) (rest : List PortEvent), s.rx = .resetPulse inFlight :: rest →
        step s = .next { s with block := State.reset.block, rx := rest })

/-! ## The incremental engine's commands -/

/-- R121: INIT writes all five elements and answers OK. -/
def Obligations.InitConstructsTheEngine : Prop :=
  ∀ (s : State) (seed : Word),
    exec (.init seed) s = .next
      { s with
        block :=
          { acc := ⟨0, 0, 0, seed⟩, buf := Vector.replicate 32 0, npend := 0, total := 0, seed := seed }
        tx := s.tx ++ [⟨.ok, []⟩] }

/-- R135: RESET writes the constructed state of the stored seed, which it keeps, and answers OK. -/
def Obligations.ResetRestoresTheConstructedState : Prop :=
  ∀ s : State,
    exec .reset s = .next
      { s with
        block :=
          { s.block with acc := ⟨0, 0, 0, s.block.seed⟩, buf := Vector.replicate 32 0, npend := 0, total := 0 }
        tx := s.tx ++ [⟨.ok, []⟩] }

/-- R136: `RESET ; ABSORB X ; DIGEST` answers what `INIT s ; ABSORB X ; DIGEST` answers, where `s` is SEED. -/
def Obligations.ResetEqualsInitWithTheStoredSeed : Prop :=
  ∀ (s : State) (x : Bytes),
    ∃ t, execAll [.reset, .absorb x, .digest] s = .next t
      ∧ execAll [.init s.block.seed, .absorb x, .digest] s = .next t

/-- R122 to R126, R25, with the frame: cut the pending tail followed by the data into 32-byte blocks and a shorter rest.
The blocks are absorbed in turn, the rest is the new tail over the last block's image, TOTAL grows by LEN modulo 2^64,
SEED and what stands on the port stay, and the answer counts the data. -/
def Obligations.AbsorbTakesWholeBlocksAndKeepsTheRest : Prop :=
  ∀ (s : State) (data : Bytes) (blocks : List Bytes) (tail : Bytes),
    (∀ b ∈ blocks, b.length = 32) → tail.length < 32 →
    s.block.buf.toList.take s.block.npend.toNat ++ data = blocks.flatten ++ tail →
    ∃ t, exec (.absorb data) s = .next t
      ∧ t.block.acc = blocks.foldl absorb1 s.block.acc
      ∧ t.block.buf.toList = vblock (blocks.getLast?.getD s.block.buf.toList) tail
      ∧ t.block.npend.toNat = tail.length
      ∧ t.block.total = s.block.total + BitVec.ofNat 64 data.length
      ∧ t.block.seed = s.block.seed ∧ t.rx = s.rx
      ∧ t.tx = s.tx ++ [⟨.ok, enc64 (BitVec.ofNat 64 data.length)⟩]

/-- R127: ABSORB of no bytes writes nothing and answers a count of zero. -/
def Obligations.EmptyAbsorbWritesNothing : Prop :=
  ∀ s : State, exec (.absorb []) s = .next { s with tx := s.tx ++ [⟨.ok, zeros 8⟩] }

/-- R127, chunking invariance: `ABSORB a ; ABSORB b` leaves the block that `ABSORB a ++ b` leaves; the answers differ
as the counts do. -/
def Obligations.ChunkingDoesNotMatter : Prop :=
  ∀ (s : State) (a b : Bytes),
    ∃ t u, execAll [.absorb a, .absorb b] s = .next t ∧ exec (.absorb (a ++ b)) s = .next u
      ∧ t.block = u.block ∧ t.rx = u.rx
      ∧ t.tx = s.tx ++ [⟨.ok, enc64 (lenWord a)⟩, ⟨.ok, enc64 (lenWord b)⟩]

/-- R130, R98: DIGEST answers the four words of six rounds over the decoded buffer, with TOTAL as the scalar in each,
and writes no state. -/
def Obligations.DigestAnswersSixRounds : Prop :=
  ∀ s : State,
    let b := dec4 s.block.buf.toList
    let x := s.block.total
    exec .digest s = .next
      { s with
        tx := s.tx ++ [⟨.ok, enc4 (mixRound (mixRound (mixRound (mixRound (mixRound (mixRound
          s.block.acc b x) b x) b x) b x) b x) b x)⟩] }

/-- R131: two DIGESTs with no state-writing command between them answer the same bytes, and an ABSORB after a DIGEST
goes on as if it had not been called. -/
def Obligations.DigestDoesNotPerturb : Prop :=
  (∀ (s : State) (between : List Instr), (∀ i ∈ between, WritesNoState i) → ∃ (r : Response) (answers : List Response),
    execAll (.digest :: between ++ [.digest]) s = .next { s with tx := s.tx ++ [r] ++ answers ++ [r] })
  ∧ (∀ (s : State) (x : Bytes), ∃ t u,
    execAll [.digest, .absorb x] s = .next t ∧ exec (.absorb x) s = .next u ∧ t.block = u.block)

/-- R132: DIGEST right after INIT, for seed 0 and for seed 39 as the rule gives their bytes. -/
def Obligations.FreshEngineDigests : Prop :=
  ∀ s : State, ∃ t u : State,
    execAll [.init 0, .digest] s = .next t ∧ t.tx = s.tx ++ [⟨.ok, []⟩, ⟨.ok, zeros 32⟩]
    ∧ execAll [.init 39, .digest] s = .next u
    ∧ u.tx = s.tx ++ [⟨.ok, []⟩, ⟨.ok,
      [0xc9, 0x2d, 0x98, 0x0d, 0x27, 0x81, 0xfc, 0x16, 0x69, 0xbf, 0xa0, 0x14, 0x56, 0x9f, 0x02, 0x45,
        0x37, 0x43, 0x47, 0x73, 0x6a, 0xd6, 0xc8, 0x13, 0x48, 0x6e, 0xc3, 0xaf, 0x91, 0xea, 0xf3, 0x79]⟩]

/-- R73, R140: EXPORT answers 81 bytes, each field at its offset and little-endian, and writes no state. -/
def Obligations.ExportAnswersTheSnapshotLayout : Prop :=
  ∀ s : State, ∃ x : Bytes,
    exec .exportState s = .next { s with tx := s.tx ++ [⟨.ok, x⟩] }
      ∧ x.length = 81 ∧ x.take 32 = s.block.buf.toList
      ∧ le64 x 32 = s.block.acc.w0 ∧ le64 x 40 = s.block.acc.w1 ∧ le64 x 48 = s.block.acc.w2
      ∧ le64 x 56 = s.block.acc.w3 ∧ le64 x 64 = s.block.seed ∧ le64 x 72 = s.block.total
      ∧ (x.getD 80 0).toNat = s.block.npend.toNat

/-- R76, R150: IMPORT of a valid snapshot writes all five elements from it and answers OK with no bytes. Anything past
byte 80 makes no difference. -/
def Obligations.ImportRestoresTheSnapshot : Prop :=
  ∀ (s : State) (x : Bytes), 81 ≤ x.length → (x.getD 80 0).toNat < 32 →
    ∃ t, exec (.importState x) s = .next t
      ∧ (∀ i (h : i < 32), t.block.buf[i] = x.getD i 0)
      ∧ t.block.acc = ⟨le64 x 32, le64 x 40, le64 x 48, le64 x 56⟩
      ∧ t.block.seed = le64 x 64 ∧ t.block.total = le64 x 72
      ∧ t.block.npend.toNat = (x.getD 80 0).toNat
      ∧ t.rx = s.rx ∧ t.tx = s.tx ++ [⟨.ok, []⟩]
      ∧ exec (.importState (x.take 81)) s = .next t

/-- R151, R152: a snapshot of fewer than 81 bytes raises E_IMPORT_LENGTH, a longer one with byte 80 at 32 or more
raises E_IMPORT_CORRUPT, and neither writes any state; nothing else is checked. -/
def Obligations.ImportChecksLengthThenCorruption : Prop :=
  ∀ (s : State) (x : Bytes),
    (x.length < 81 → exec (.importState x) s = .next { s with tx := s.tx ++ [⟨.importLength, []⟩] })
    ∧ (81 ≤ x.length → 32 ≤ (x.getD 80 0).toNat →
        exec (.importState x) s = .next { s with tx := s.tx ++ [⟨.importCorrupt, []⟩] })
    ∧ (81 ≤ x.length → (x.getD 80 0).toNat < 32 →
        ∃ t, exec (.importState x) s = .next t ∧ t.tx = s.tx ++ [⟨.ok, []⟩])

/-- R153: after a valid IMPORT the seed is the snapshot's, and RESET restores that seed's constructed state. -/
def Obligations.ResetAfterImportUsesTheImportedSeed : Prop :=
  ∀ (s : State) (x : Bytes), 81 ≤ x.length → (x.getD 80 0).toNat < 32 →
    ∃ t, execAll [.importState x, .reset] s = .next t ∧ t.block = constructed (le64 x 64)

/-- R154: EXPORT in one engine and IMPORT of the 81 bytes in any engine gives exactly the exported state, and every
later command sequence gives the same responses as it would have there. -/
def Obligations.ExportThenImportIsExact : Prop :=
  ∀ (s other : State) (later : List Instr), ∃ (x : Bytes) (t : State),
    exec .exportState s = .next { s with tx := s.tx ++ [⟨.ok, x⟩] } ∧ x.length = 81
      ∧ exec (.importState x) other = .next t ∧ t.block = s.block
      ∧ ∃ (answers : List Response) (s' t' : State),
          execAll later s = .next s' ∧ execAll later t = .next t'
            ∧ s'.tx = s.tx ++ answers ∧ t'.tx = t.tx ++ answers ∧ s'.block = t'.block

/-- R33, carried to every command but a valid IMPORT: after INIT or RESET and any such commands, TOTAL modulo 32 is
NPEND, also where TOTAL has wrapped. R33 itself speaks of ABSORBs alone. -/
def Obligations.TotalAgreesWithPendingUntilImport : Prop :=
  ∀ (s : State) (i : Instr) (later : List Instr), (i = .reset ∨ ∃ seed, i = .init seed) →
    (∀ j ∈ later, ¬ ValidImport j) → ∃ t, execAll (i :: later) s = .next t ∧ InStep t.block

/-- R33, carried to every step but that of a valid IMPORT: a command, an illegal frame, a hardware reset and an idle step
each keep TOTAL modulo 32 equal to NPEND. -/
def Obligations.StepKeepsTotalInStepUntilImport : Prop :=
  ∀ s t : State, InStep s.block → ¬ ServesValidImport s → step s = .next t → InStep t.block

/-- R180, R33: at reset TOTAL modulo 32 is NPEND; both are zero. -/
def Obligations.ResetIsInStep : Prop := InStep State.reset.block

/-- R33, R151: an IMPORT can leave TOTAL and NPEND out of step. -/
def Obligations.ImportCanBreakTheAgreement : Prop :=
  ∃ (x : Bytes) (t : State), exec (.importState x) State.reset = .next t ∧ ¬ InStep t.block

/-- R25, R26, R126, R110 and the command rules R121 to R155: PH's engines, with the separate tail and cache, the
block-wise Absorb and the one-shot hash by buffer offsets, are what the machine implements: from states that agree as R25
says, every command gives the same response and states that agree. How PH's engines are written down, after the conflicts
C3 and C6, is the model's reading (log 13). -/
def Obligations.EveryCommandRefinesPhEngine : Prop :=
  ∀ (e : PhEngine) (s : State) (i : Instr), Represents e s.block →
    ∃ t, exec i s = .next t ∧ t.rx = s.rx ∧ t.tx = s.tx ++ [(phRun e i).1] ∧ Represents (phRun e i).2 t.block

/-- R25, R26: every block is what some engine of PH's is held as, so the refinement leaves no state out. -/
def Obligations.EveryBlockHoldsSomePhEngine : Prop :=
  ∀ b : Block, ∃ e : PhEngine, Represents e b

/-! ## The one-shot engine -/

/-- R110, R112, R99, R69: cut the buffer into 32-byte blocks and a shorter rest. ONESHOT answers the wrapping sum of six
rounds over the rest laid on the last block's image (zeros where there is none), with the zero-extended seed as the
scalar, from accumulators that start at (0, 0, 0, LEN); it writes no state. -/
def Obligations.OneshotHashesBlocksAndRest : Prop :=
  ∀ (s : State) (seed32 : BitVec 32) (blocks : List Bytes) (tail : Bytes),
    (∀ b ∈ blocks, b.length = 32) → tail.length < 32 →
    exec (.oneshot seed32 (blocks.flatten ++ tail)) s = .next
      { s with
        tx := s.tx ++ [⟨.ok, enc64 (wordSum (fin6
          (blocks.foldl absorb1 ⟨0, 0, 0, BitVec.ofNat 64 (32 * blocks.length + tail.length)⟩)
          (dec4 (vblock (blocks.getLast?.getD (zeros 32)) tail))
          (BitVec.ofNat 64 seed32.toNat)))⟩] }

/-- R111: ONESHOT reads and writes none of the engine's state: whatever the block holds, the answer is the same, the
block is left as it was, and a DIGEST after it answers what it would have answered before. -/
def Obligations.OneshotDoesNotTouchTheEngine : Prop :=
  ∀ (s other : State) (seed32 : BitVec 32) (data : Bytes), ∃ r d : Response,
    exec (.oneshot seed32 data) s = .next { s with tx := s.tx ++ [r] }
      ∧ exec (.oneshot seed32 data) other = .next { other with tx := other.tx ++ [r] }
      ∧ exec .digest s = .next { s with tx := s.tx ++ [d] }
      ∧ execAll [.oneshot seed32 data, .digest] s = .next { s with tx := s.tx ++ [r, d] }

/-- R114: for a string shorter than 2^32 bytes, ONESHOT with its length as the seed answers the wrapping sum of the four
words of the DIGEST after INIT with that length and ABSORB of the string. -/
def Obligations.OneshotIsTheSumOfTheDigest : Prop :=
  ∀ (s : State) (x : Bytes), x.length < 2 ^ 32 → ∃ (t : State) (d : Bytes),
    execAll [.init (BitVec.ofNat 64 x.length), .absorb x, .digest] s = .next t
      ∧ t.tx = s.tx ++ [⟨.ok, []⟩, ⟨.ok, enc64 (BitVec.ofNat 64 x.length)⟩, ⟨.ok, d⟩] ∧ d.length = 32
      ∧ exec (.oneshot (BitVec.ofNat 32 x.length) x) s
          = .next { s with tx := s.tx ++ [⟨.ok, enc64 (wordSum (dec4 d))⟩] }

/-- PH's two literal vectors, in the examples of R110 and R130 (spec/95_test_vectors.md 1.1 and 1.2). -/
def Obligations.SourceVectorsHold : Prop :=
  ∀ s : State, ∃ t : State,
    exec (.oneshot 39 (zeros 39)) s
      = .next { s with tx := s.tx ++ [⟨.ok, [0x02, 0xb9, 0xde, 0xb8, 0xb8, 0x78, 0xf1, 0xf4]⟩] }
    ∧ execAll [.init 39, .absorb (zeros 39), .digest] s = .next t
    ∧ t.tx = s.tx ++ [⟨.ok, []⟩, ⟨.ok, [0x27, 0, 0, 0, 0, 0, 0, 0]⟩, ⟨.ok,
      [0x01, 0x54, 0xba, 0x8a, 0x00, 0x37, 0x34, 0x6c, 0x32, 0x6a, 0xde, 0x13, 0x9f, 0xda, 0xd7, 0x4b,
        0xd0, 0x16, 0x99, 0x27, 0xbc, 0x2a, 0x26, 0x8c, 0xff, 0xe3, 0xac, 0xf2, 0x5c, 0x3c, 0xbf, 0xb0]⟩]

/-! ## The mixing core and byte order -/

/-- R8: the formula of `rotl`, and bit `i` of the result is bit `(i - r) mod 64` of `x`. -/
def Obligations.RotlMovesEachBitLeft : Prop :=
  ∀ (x : Word) (r : Nat), 0 < r → r < 64 →
    (rotl x r).toNat = (x.toNat * 2 ^ r ||| x.toNat / 2 ^ (64 - r)) % 2 ^ 64
    ∧ ∀ i, i < 64 → (rotl x r).getLsbD i = x.getLsbD ((i + 64 - r) % 64)

/-- R95: for fixed block words and scalar the round is a bijection on accumulator tuples, and `RoundInv` undoes it. -/
def Obligations.RoundIsInvertible : Prop :=
  ∀ (b : Quad) (x : Word), Function.Bijective (fun s => mixRound s b x)
    ∧ ∀ s, roundInv (mixRound s b x) b x = s ∧ mixRound (roundInv s b x) b x = s

/-- R96: the four stages of two operations each give the round's result. -/
def Obligations.StagedRoundIsTheRound : Prop :=
  ∀ (s b : Quad) (x : Word), roundStaged s b x = mixRound s b x

/-- R94: the all-zero fixed point, the all-ones extreme and the one-line example. -/
def Obligations.RoundCornerCases : Prop :=
  mixRound ⟨0, 0, 0, 0⟩ ⟨0, 0, 0, 0⟩ 0 = ⟨0, 0, 0, 0⟩
    ∧ mixRound
        ⟨0xffffffffffffffff, 0xffffffffffffffff, 0xffffffffffffffff, 0xffffffffffffffff⟩
        ⟨0xffffffffffffffff, 0xffffffffffffffff, 0xffffffffffffffff, 0xffffffffffffffff⟩ 0xffffffffffffffff
        = ⟨0xfffffffffffffff8, 0x0000040000000008, 0xfffffffffffffff7, 0x0000000000030007⟩
    ∧ mixRound ⟨0, 0, 0, 39⟩ ⟨0, 0, 0, 0⟩ 0
        = ⟨0x0000000013800027, 0x0000000000000027, 0x0000000000000027, 0x0000138013a70027⟩

/-- R99, R100: the virtual final block is the tail and then the image's bytes; with no tail it is the image. -/
def Obligations.VirtualBlockOverlaysTheTail : Prop :=
  ∀ image tail : Bytes, image.length = 32 → tail.length < 32 →
    (vblock image tail).length = 32
    ∧ (∀ i, i < tail.length → (vblock image tail)[i]? = tail[i]?)
    ∧ (∀ i, tail.length ≤ i → i < 32 → (vblock image tail)[i]? = image[i]?)
    ∧ vblock image [] = image

/-- R11: the value `LE64` gives eight bytes, the bytes `Enc64` gives a word, and `Dec4` and `Enc4` built from them. -/
def Obligations.LittleEndianWords : Prop :=
  (∀ (x : Bytes) (o : Nat), o + 8 ≤ x.length →
    (le64 x o).toNat = ∑ j ∈ Finset.range 8, (x.getD (o + j) 0).toNat * 2 ^ (8 * j))
  ∧ (∀ v : Word, (enc64 v).length = 8 ∧ ∀ j, j < 8 → (enc64 v)[j]? = some (v.extractLsb' (8 * j) 8))
  ∧ (∀ x : Bytes, x.length = 32 → dec4 x = ⟨le64 x 0, le64 x 8, le64 x 16, le64 x 24⟩)
  ∧ (∀ q : Quad, enc4 q = enc64 q.w0 ++ enc64 q.w1 ++ enc64 q.w2 ++ enc64 q.w3)

/-- R43: byte `X[i]` of a block lands in word `B[i div 8]` at bits `8 * (i mod 8) + 7` down to `8 * (i mod 8)`. -/
def Obligations.BlockBytesLandInTheirLanes : Prop :=
  ∀ (x : Bytes) (i : Nat), x.length = 32 → i < 32 →
    ([(dec4 x).w0, (dec4 x).w1, (dec4 x).w2, (dec4 x).w3][i / 8]?).map (·.extractLsb' (8 * (i % 8)) 8) = x[i]?

/-- R11, R42: decoding and encoding four words undo each other, so no bit of a block or digest is lost. -/
def Obligations.BlockWordsRoundTrip : Prop :=
  (∀ q : Quad, dec4 (enc4 q) = q) ∧ (∀ x : Bytes, x.length = 32 → enc4 (dec4 x) = x)

/-! ## Whole-machine rules -/

/-- R64, R65, R184: every command gives exactly one response, its RDATA empty unless the status is OK and otherwise of
the length its opcode fixes, and leaves what stands behind it on the port. -/
def Obligations.EveryCommandGivesOneResponse : Prop :=
  ∀ (i : Instr) (s : State), ∃ (t : State) (r : Response),
    exec i s = .next t ∧ t.tx = s.tx ++ [r] ∧ t.rx = s.rx
      ∧ (r.status = .ok → r.rdata.length = rdataLength i) ∧ (r.status ≠ .ok → r.rdata = [])
      ∧ r.status ≠ .illegalCommand

/-- R64: on a byte-stream port a response's bytes say where it ends, so the host can read the stream back. -/
def Obligations.ResponseStreamIsReadable : Prop :=
  ∀ (r q : Response) (rest more : Bytes), r.rdata.length < 2 ^ 64 → q.rdata.length < 2 ^ 64 →
    r.bytes ++ rest = q.bytes ++ more → r = q ∧ rest = more

/-- R22's written-by column: DIGEST, EXPORT and ONESHOT write no element; only INIT and IMPORT write SEED; only INIT,
RESET, ABSORB and IMPORT write any other. -/
def Obligations.WrittenByColumn : Prop :=
  ∀ (i : Instr) (s t : State), exec i s = .next t →
    (WritesNoState i → t.block = s.block)
    ∧ (t.block.seed ≠ s.block.seed → (∃ seed, i = .init seed) ∨ ∃ data, i = .importState data)
    ∧ (t.block ≠ s.block →
        (∃ seed, i = .init seed) ∨ i = .reset ∨ (∃ data, i = .absorb data) ∨ ∃ data, i = .importState data)

/-- R47: INIT, RESET and IMPORT repeated leave the state one of them leaves; ABSORB repeated absorbs the bytes twice. -/
def Obligations.RepeatedCommands : Prop :=
  ∀ (s : State) (i : Instr), ∃ t u, exec i s = .next t ∧ execAll [i, i] s = .next u
    ∧ ((∀ data, i ≠ .absorb data) → u.block = t.block)
    ∧ (∀ data, i = .absorb data → ∃ v, exec (.absorb (data ++ data)) s = .next v ∧ u.block = v.block)

/-- R64, R161, R163 over the whole machine: a step keeps every response ever returned, and any it adds, of a form the
block may give. -/
def Obligations.StepKeepsResponsesSound : Prop :=
  ∀ s t : State, ResponsesSound s → step s = .next t → ResponsesSound t

/-- R64: at reset no response stands that the block may not give. That none stands at all is the model's choice (log 1). -/
def Obligations.ResetHasSoundResponses : Prop := ResponsesSound State.reset

/-- R48, R184: a step consumes from the front of the port only, and adds to the answers at the end only, at most one. -/
def Obligations.StepServesThePortInOrder : Prop :=
  ∀ s t : State, step s = .next t →
    t.rx <:+ s.rx ∧ s.tx <+: t.tx ∧ t.tx.length ≤ s.tx.length + 1

/-- R48: a stream of commands on the port runs them one at a time, in order. -/
def Obligations.StreamRunsCommandsInOrder : Prop :=
  ∀ (s : State) (cmds : List Instr), (∀ i ∈ cmds, i.wf = true) → s.rx = portBytes (cmds.flatMap encode) →
    Sys2Proof.core.run cmds.length s = execAll cmds { s with rx := [] }

/-- R176, R191: from any state, a stream of fully delivered commands, legal or not, runs to its end: as many steps as
commands, one response each, and an idle block. That an idle step is a next state is the model's reading (log 4). -/
def Obligations.EveryDeliveredCommandTerminates : Prop :=
  ∀ (s : State) (frames : List (Descriptor × Bytes)), (∀ f ∈ frames, Delivered f) →
    s.rx = portBytes (streamOf frames) →
    ∃ t : State, Sys2Proof.core.run frames.length s = .next t ∧ t.rx = []
      ∧ t.tx.length = s.tx.length + frames.length ∧ step t = .next t

/-- R167: a command after a failed one behaves as if the failed one had not been sent, but for the answer that stands
before its own. -/
def Obligations.ErrorsAreRecoverable : Prop :=
  ∀ (s : State) (d : Descriptor) (data : Bytes) (i : Instr) (rest : List PortEvent),
    (d.legal = false ∨ ∃ x, decodeFrame d data = .ok (.importState x) ∧ importStatus x ≠ .ok) →
    Delivered (d, data) → i.wf = true → NoPulseInFlight rest →
    s.rx = portBytes (encodeFrame d data ++ encode i) ++ rest →
    ∃ e : Status, e ≠ .ok ∧ Sys2Proof.core.run 2 s = exec i { s with rx := rest, tx := s.tx ++ [⟨e, []⟩] }

/-! ## The spec's notation -/

/-- R72: the pseudo-commands' expansions. -/
def Obligations.PseudoCommandExpansions : Prop :=
  ∀ (seed64 : Word) (seed32 : BitVec 32) (e : ByteExpr),
    AsmLine.assemble (.hash256 seed64 e)
        = AsmLine.assemble (.init seed64) ++ AsmLine.assemble (.absorb e) ++ AsmLine.assemble .digest
    ∧ AsmLine.assemble (.hash64 seed32 e) = AsmLine.assemble (.oneshot seed32 e)
    ∧ AsmLine.assemble (.rehash e)
        = AsmLine.assemble .reset ++ AsmLine.assemble (.absorb e) ++ AsmLine.assemble .digest
    ∧ AsmLine.assemble .suspend = AsmLine.assemble .exportState
    ∧ AsmLine.assemble (.resume e) = AsmLine.assemble (.importState e)

/-- R71, R63: lines of programs P1 and P3 as text, and the descriptors and data spec/95_test_vectors.md section 3 gives
them. How a line's text is read in detail is the model's choice (log 12). -/
def Obligations.WrittenLinesAssemble : Prop :=
  assembleText "INIT 39" = some [(⟨1, 0x27, 0⟩, [])]
    ∧ assembleText "ABSORB zeros(39)" = some [(⟨2, 0, 0x27⟩, zeros 39)]
    ∧ assembleText "DIGEST" = some [(⟨3, 0, 0⟩, [])]
    ∧ assembleText "ONESHOT 39, zeros(39)" = some [(⟨7, 0x27, 0x27⟩, zeros 39)]
    ∧ assembleText ".word 0x00" = some [(⟨0, 0, 0⟩, [])]
    ∧ assembleText "IMPORT zeros(80) ++ x\"20\"" = some [(⟨6, 0, 0x51⟩, zeros 80 ++ [0x20])]

/-- R71, R61: every line but a raw opcode, its byte strings short enough for LEN, assembles to legal descriptors with
their data delivered. -/
def Obligations.AssembledLinesAreLegal : Prop :=
  ∀ (line : AsmLine) (f : Descriptor × Bytes), (∀ opc, line ≠ .rawWord opc) → f ∈ line.assemble →
    f.2.length < 2 ^ 64 → f.1.legal = true ∧ Delivered f

/-- R77: the snapshot of the state that `INIT 0 ; ABSORB fill(1,32) ++ x"02"` reaches. -/
def Obligations.SnapshotExample : Prop :=
  ∀ s : State, ∃ t : State,
    execAll [.init 0, .absorb (List.replicate 32 1 ++ [2]), .exportState] s = .next t
    ∧ t.tx.getLast? = some ⟨.ok, [2] ++ List.replicate 31 1
      ++ List.replicate 8 3 ++ List.replicate 8 2 ++ List.replicate 8 3 ++ List.replicate 8 2
      ++ [0, 0, 0, 0, 0, 0, 0, 0] ++ [0x21, 0, 0, 0, 0, 0, 0, 0] ++ [1]⟩
end

