-- ==== Sys2Proof/Laws/Bytes.lean ====
section
/-! SUPPORT. What the byte-order operations do (spec/00_scope.md R11): lengths, values, and that they undo each other. -/

namespace Sys2Proof.Laws

@[simp] theorem toLE_length (k n : Nat) : (toLE k n).length = k := by
  induction k generalizing n with
  | zero => rfl
  | succ k ih => simp [toLE, ih]

@[simp] theorem enc64_length (v : Word) : (enc64 v).length = 8 := toLE_length 8 _

@[simp] theorem enc4_length (q : Quad) : (enc4 q).length = 32 := by simp [enc4]

/-- A little-endian string reads back as the number's low bytes. -/
theorem fromLE_toLE (k n : Nat) : fromLE (toLE k n) = n % 256 ^ k := by
  induction k generalizing n with
  | zero => simp [toLE, fromLE, Nat.mod_one]
  | succ k ih =>
    rw [Nat.pow_succ', Nat.mod_mul]
    simp only [toLE, fromLE, ih, BitVec.toNat_ofNat, Nat.reducePow]

theorem fromLE_lt (x : Bytes) : fromLE x < 256 ^ x.length := by
  induction x with
  | nil => simp [fromLE]
  | cons b bs ih =>
    have := b.isLt
    simp only [fromLE, List.length_cons, Nat.pow_succ]
    omega

/-- Every byte string is the little-endian form of its value. -/
theorem toLE_fromLE (x : Bytes) : toLE x.length (fromLE x) = x := by
  induction x with
  | nil => rfl
  | cons b bs ih =>
    have hb := b.isLt
    have hdiv : (b.toNat + 256 * fromLE bs) / 256 = fromLE bs := by omega
    simp only [List.length_cons, toLE, fromLE, hdiv, ih]
    congr 1
    apply BitVec.eq_of_toNat_eq
    simp only [BitVec.toNat_ofNat]
    omega

/-- A word at an offset reads its own encoding back, whatever stands around it. -/
theorem le64_append_enc64 (front : Bytes) (v : Word) (rest : Bytes) (o : Nat) (h : front.length = o) :
    le64 (front ++ (enc64 v ++ rest)) o = v := by
  subst h
  have : (enc64 v ++ rest).take 8 = enc64 v := by
    rw [List.take_append_of_le_length (by simp), List.take_of_length_le (by simp)]
  simp only [le64, List.drop_left, this]
  rw [enc64, fromLE_toLE]
  apply BitVec.eq_of_toNat_eq
  have := v.isLt
  simp
  omega

/-- The eight bytes at an offset are the encoding of the word read there. -/
theorem enc64_le64 (x : Bytes) (o : Nat) (h : o + 8 ≤ x.length) : enc64 (le64 x o) = (x.drop o).take 8 := by
  have hl : ((x.drop o).take 8).length = 8 := by simp; omega
  have hlt := fromLE_lt ((x.drop o).take 8)
  rw [hl] at hlt
  have hval : (le64 x o).toNat = fromLE ((x.drop o).take 8) := by
    simp only [le64, BitVec.toNat_ofNat]
    omega
  have := toLE_fromLE ((x.drop o).take 8)
  rwa [hl, ← hval] at this

/-- Reading a word depends only on its eight bytes. -/
theorem le64_take (x : Bytes) (o n : Nat) (h : o + 8 ≤ n) : le64 (x.take n) o = le64 x o := by
  simp only [le64, List.drop_take, List.take_take]
  rw [Nat.min_eq_left (by omega)]

/-- A word of the front part is read from the front part alone. -/
theorem le64_append_left (x y : Bytes) (o : Nat) (h : o + 8 ≤ x.length) : le64 (x ++ y) o = le64 x o := by
  rw [← le64_take (x ++ y) o x.length h, List.take_left]

end Sys2Proof.Laws
end

