-- ==== Sys2Proof/Laws/Decode.lean ====
section
/-! SUPPORT. The descriptor's fields as numbers (spec/30_encoding.md R61, R66), which turn a claim about a descriptor into
arithmetic. -/

namespace Sys2Proof.Laws

theorem opc_toNat (d : Descriptor) : d.opc.toNat = d.cmd.toNat % 256 := by
  simp only [Descriptor.opc, BitVec.extractLsb'_toNat, Nat.shiftRight_eq_div_pow]
  simp

theorem rsvd_eq_zero_iff (d : Descriptor) : d.rsvd = 0#56 ↔ d.cmd.toNat < 256 := by
  have := d.cmd.isLt
  rw [BitVec.toNat_eq]
  simp only [Descriptor.rsvd, BitVec.extractLsb'_toNat, Nat.shiftRight_eq_div_pow, BitVec.toNat_ofNat]
  omega

theorem argHigh_eq_zero_iff (d : Descriptor) : d.argHigh = 0#32 ↔ d.arg.toNat < 2 ^ 32 := by
  have := d.arg.isLt
  rw [BitVec.toNat_eq]
  simp only [Descriptor.argHigh, BitVec.extractLsb'_toNat, Nat.shiftRight_eq_div_pow, BitVec.toNat_ofNat]
  omega

/-- The low half of a zero-extended seed is the seed, and its high half is zero (R66, R69). -/
theorem seed32_in_arg (v : BitVec 32) :
    (v.setWidth 64 : Word).extractLsb' 0 32 = v ∧ (v.setWidth 64 : Word).extractLsb' 32 32 = 0#32 := by
  have := v.isLt
  constructor <;> apply BitVec.eq_of_toNat_eq <;> simp [Nat.shiftRight_eq_div_pow] <;> omega

/-- An illegal descriptor decodes to no command (R67, R68). -/
theorem decodeFrame_of_not_legal (d : Descriptor) (data : Bytes) (h : d.legal = false) :
    decodeFrame d data = .error .illegalCommand := by
  simp [decodeFrame, h]

/-- A descriptor that decodes is legal (R66). -/
theorem legal_of_decodeFrame (d : Descriptor) (data : Bytes) (i : Instr) (h : decodeFrame d data = .ok i) :
    d.legal = true := by
  by_contra hn
  simp [decodeFrame, hn] at h

end Sys2Proof.Laws
end

