-- ==== Sys2Proof/Laws/State.lean ====
section
/-! SUPPORT. One lemma per field per update of the state and of the block, each true by unfolding, so that no proof
unfolds a record update again. -/

namespace Sys2Proof.Laws

open Sys2Proof.Machine

/-! ## The state's updates -/

@[simp] theorem respond_block (s : State) (c : Status) (x : Bytes) : (respond s c x).block = s.block := rfl
@[simp] theorem respond_rx (s : State) (c : Status) (x : Bytes) : (respond s c x).rx = s.rx := rfl
@[simp] theorem respond_tx (s : State) (c : Status) (x : Bytes) : (respond s c x).tx = s.tx ++ [⟨c, x⟩] := rfl

@[simp] theorem hardwareReset_block (s : State) (rest : List PortEvent) :
    (hardwareReset s rest).block = Block.powerOn := rfl
@[simp] theorem hardwareReset_rx (s : State) (rest : List PortEvent) : (hardwareReset s rest).rx = rest := rfl
@[simp] theorem hardwareReset_tx (s : State) (rest : List PortEvent) : (hardwareReset s rest).tx = s.tx := rfl

@[simp] theorem withFetchWord_block (s : State) (n w : Nat) : (s.withFetchWord n w).block = s.block := rfl
@[simp] theorem withFetchWord_rx (s : State) (n w : Nat) :
    (s.withFetchWord n w).rx = portBytes (layoutWord n w) := rfl
@[simp] theorem withFetchWord_tx (s : State) (n w : Nat) : (s.withFetchWord n w).tx = s.tx := rfl

@[simp] theorem reset_block : State.reset.block = Block.powerOn := rfl
@[simp] theorem reset_rx : State.reset.rx = [] := rfl
@[simp] theorem reset_tx : State.reset.tx = [] := rfl

/-! ## The block's updates -/

@[simp] theorem constructed_acc (seed : Word) : (constructed seed).acc = ⟨0, 0, 0, seed⟩ := rfl
@[simp] theorem constructed_buf (seed : Word) : (constructed seed).buf = Vector.replicate 32 0 := rfl
@[simp] theorem constructed_npend (seed : Word) : (constructed seed).npend = 0 := rfl
@[simp] theorem constructed_total (seed : Word) : (constructed seed).total = 0 := rfl
@[simp] theorem constructed_seed (seed : Word) : (constructed seed).seed = seed := rfl

@[simp] theorem addTotal_acc (b : Block) (x : Bytes) : (addTotal b x).acc = b.acc := rfl
@[simp] theorem addTotal_buf (b : Block) (x : Bytes) : (addTotal b x).buf = b.buf := rfl
@[simp] theorem addTotal_npend (b : Block) (x : Bytes) : (addTotal b x).npend = b.npend := rfl
@[simp] theorem addTotal_total (b : Block) (x : Bytes) : (addTotal b x).total = b.total + lenWord x := rfl
@[simp] theorem addTotal_seed (b : Block) (x : Bytes) : (addTotal b x).seed = b.seed := rfl

@[simp] theorem unsnap_acc (x : Bytes) : (unsnap x).acc = ⟨le64 x 32, le64 x 40, le64 x 48, le64 x 56⟩ := rfl
@[simp] theorem unsnap_buf (x : Bytes) : (unsnap x).buf = snapshotBuf x := rfl
@[simp] theorem unsnap_npend (x : Bytes) : (unsnap x).npend = (x.getD 80 0).setWidth 5 := rfl
@[simp] theorem unsnap_total (x : Bytes) : (unsnap x).total = le64 x 72 := rfl
@[simp] theorem unsnap_seed (x : Bytes) : (unsnap x).seed = le64 x 64 := rfl

@[simp] theorem absorbByte_total (b : Block) (d : Byte) : (absorbByte b d).total = b.total := by
  simp only [absorbByte]; split <;> rfl
@[simp] theorem absorbByte_seed (b : Block) (d : Byte) : (absorbByte b d).seed = b.seed := by
  simp only [absorbByte]; split <;> rfl
@[simp] theorem absorbByte_buf (b : Block) (d : Byte) :
    (absorbByte b d).buf = b.buf.set b.npend.toNat d b.npend.isLt := by
  simp only [absorbByte]; split <;> rfl

@[simp] theorem absorbBytes_total (b : Block) (x : Bytes) : (absorbBytes b x).total = b.total := by
  induction x generalizing b with
  | nil => rfl
  | cons d x ih => exact (ih (absorbByte b d)).trans (absorbByte_total b d)
@[simp] theorem absorbBytes_seed (b : Block) (x : Bytes) : (absorbBytes b x).seed = b.seed := by
  induction x generalizing b with
  | nil => rfl
  | cons d x ih => exact (ih (absorbByte b d)).trans (absorbByte_seed b d)

end Sys2Proof.Laws
end

