-- ==== Sys2Proof/Laws/Ops.lean ====
section
/-! SUPPORT. For each shared operation, what it can do, said once; proofs cite these instead of unfolding. -/

namespace Sys2Proof.Laws

open Sys2Proof.Machine

/-! ## Answering -/

/-- A raised error leaves the block and the port and adds its answer (spec/60_exceptions.md R163). -/
theorem raise_eq (s : State) (e : Status) : raise s e = .next { s with tx := s.tx ++ [⟨e, []⟩] } := rfl

/-- A completed command has the given block and adds its answer. -/
theorem complete_eq (s : State) (b : Block) (x : Bytes) :
    complete s b x = .next { s with block := b, tx := s.tx ++ [⟨.ok, x⟩] } := rfl

/-- The three outcomes of the snapshot checks (R76, R151). -/
theorem importStatus_cases (x : Bytes) :
    (x.length < 81 ∧ importStatus x = .importLength)
    ∨ (81 ≤ x.length ∧ 32 ≤ (x.getD 80 0).toNat ∧ importStatus x = .importCorrupt)
    ∨ (81 ≤ x.length ∧ (x.getD 80 0).toNat < 32 ∧ importStatus x = .ok) := by
  simp only [importStatus, Config.snapshotBytes]
  split
  · exact .inl ⟨‹_›, rfl⟩
  · split
    · exact .inr (.inl ⟨by omega, ‹_›, rfl⟩)
    · exact .inr (.inr ⟨by omega, by omega, rfl⟩)

/-! ## The buffer as a list -/

@[simp] theorem buf_toList_length (b : Block) : b.buf.toList.length = 32 := b.buf.length_toList

theorem npend_lt (b : Block) : b.npend.toNat < 32 := b.npend.isLt

/-- Writing at `NPEND` keeps the pending bytes, puts the new one behind them, and leaves the rest. -/
theorem absorbByte_buf_toList (b : Block) (d : Byte) :
    (absorbByte b d).buf.toList
      = b.buf.toList.take b.npend.toNat ++ d :: b.buf.toList.drop (b.npend.toNat + 1) := by
  have h : b.npend.toNat < b.buf.toList.length := by simpa using npend_lt b
  rw [absorbByte_buf, Vector.toList_set, List.set_eq_take_append_cons_drop, if_pos h]

/-- One byte, where the buffer does not fill (R124). -/
theorem absorbByte_of_lt (b : Block) (d : Byte) (h : b.npend.toNat + 1 < 32) :
    (absorbByte b d).acc = b.acc ∧ (absorbByte b d).npend.toNat = b.npend.toNat + 1 := by
  have h' : ¬ b.npend.toNat + 1 = 32 := by omega
  simp only [absorbByte, if_neg h', true_and]
  simp [BitVec.toNat_add]
  omega

/-- One byte, where the buffer fills: the block is absorbed and stays in `BUF` (R124). -/
theorem absorbByte_of_full (b : Block) (d : Byte) (h : b.npend.toNat + 1 = 32) :
    (absorbByte b d).acc = absorb1 b.acc (b.buf.toList.take 31 ++ [d])
    ∧ (absorbByte b d).npend = 0 ∧ (absorbByte b d).buf.toList = b.buf.toList.take 31 ++ [d] := by
  have hn : b.npend.toNat = 31 := by omega
  have hbuf : (absorbByte b d).buf.toList = b.buf.toList.take 31 ++ [d] := by
    rw [absorbByte_buf_toList, hn, List.drop_of_length_le (by simp)]
  refine ⟨?_, ?_, hbuf⟩
  · rw [← hbuf, absorbByte_buf]
    simp only [absorbByte, Config.blockBytes, if_pos h]
  · simp only [absorbByte, Config.blockBytes, if_pos h]

/-! ## The absorption loop -/

theorem absorbBytes_nil (b : Block) : absorbBytes b [] = b := rfl

theorem absorbBytes_cons (b : Block) (d : Byte) (x : Bytes) :
    absorbBytes b (d :: x) = absorbBytes (absorbByte b d) x := rfl

theorem absorbBytes_append (b : Block) (x y : Bytes) :
    absorbBytes b (x ++ y) = absorbBytes (absorbBytes b x) y := List.foldl_append

/-- The loop neither reads nor writes `TOTAL`: counting before it or after it is the same (R123, R124). -/
theorem absorbBytes_addTotal (b : Block) (x y : Bytes) :
    absorbBytes (addTotal b y) x = addTotal (absorbBytes b x) y := by
  induction x generalizing b with
  | nil => rfl
  | cons d x ih =>
    have : absorbByte (addTotal b y) d = addTotal (absorbByte b d) y := by
      by_cases h : b.npend.toNat + 1 = 32 <;> simp [absorbByte, addTotal, h]
    rw [absorbBytes_cons, absorbBytes_cons, this, ih]

/-- Counting two strings is counting their concatenation, modulo 2^64 (R123). -/
theorem addTotal_append (b : Block) (x y : Bytes) : addTotal (addTotal b x) y = addTotal b (x ++ y) := by
  simp [addTotal, lenWord, BitVec.ofNat_add, BitVec.add_assoc]

/-- Bytes that do not fill the buffer extend the tail (R124; conflict C6). -/
theorem absorbBytes_of_lt (b : Block) (x : Bytes) (h : b.npend.toNat + x.length < 32) :
    (absorbBytes b x).acc = b.acc
    ∧ (absorbBytes b x).npend.toNat = b.npend.toNat + x.length
    ∧ (absorbBytes b x).buf.toList
        = b.buf.toList.take b.npend.toNat ++ x ++ b.buf.toList.drop (b.npend.toNat + x.length) := by
  induction x generalizing b with
  | nil => simp [absorbBytes_nil]
  | cons d x ih =>
    simp only [List.length_cons] at h
    obtain ⟨hacc, hn⟩ := absorbByte_of_lt b d (by omega)
    obtain ⟨iacc, in', ibuf⟩ := ih (absorbByte b d) (by omega)
    rw [absorbBytes_cons]
    refine ⟨iacc.trans hacc, by rw [in', hn, List.length_cons]; omega, ?_⟩
    have hl : (b.buf.toList.take b.npend.toNat).length = b.npend.toNat := by
      have := npend_lt b
      simp; omega
    have htake : (absorbByte b d).buf.toList.take (b.npend.toNat + 1)
        = b.buf.toList.take b.npend.toNat ++ [d] := by
      rw [absorbByte_buf_toList, List.take_append, hl, List.take_of_length_le (by omega)]
      simp
    have hdrop : (absorbByte b d).buf.toList.drop (b.npend.toNat + 1 + x.length)
        = b.buf.toList.drop (b.npend.toNat + (x.length + 1)) := by
      rw [absorbByte_buf_toList, List.drop_append, hl, List.drop_of_length_le (by omega)]
      have : b.npend.toNat + 1 + x.length - b.npend.toNat = x.length + 1 := by omega
      rw [this, List.drop_succ_cons, List.drop_drop, List.nil_append]
      congr 1
      omega
    rw [ibuf, hn, htake, hdrop]
    simp

/-- Bytes that fill the buffer exactly: tail and bytes are absorbed as one block, which stays in `BUF` (R124, R127). -/
theorem absorbBytes_of_full (b : Block) (x : Bytes) (h : b.npend.toNat + x.length = 32) :
    (absorbBytes b x).acc = absorb1 b.acc (b.buf.toList.take b.npend.toNat ++ x)
    ∧ (absorbBytes b x).npend = 0
    ∧ (absorbBytes b x).buf.toList = b.buf.toList.take b.npend.toNat ++ x := by
  have hne : x ≠ [] := by
    rintro rfl
    have := npend_lt b
    simp at h; omega
  obtain ⟨y, d, rfl⟩ : ∃ y d, x = y ++ [d] := ⟨_, _, (List.dropLast_append_getLast hne).symm⟩
  simp only [List.length_append, List.length_singleton] at h
  obtain ⟨hacc, hn, hbuf⟩ := absorbBytes_of_lt b y (by omega)
  rw [absorbBytes_append]
  obtain ⟨facc, fn, fbuf⟩ := absorbByte_of_full (absorbBytes b y) d (by omega)
  have htake : (absorbBytes b y).buf.toList.take 31 = b.buf.toList.take b.npend.toNat ++ y := by
    have := npend_lt b
    rw [hbuf]
    apply List.take_left'
    simp
    omega
  rw [htake] at facc fbuf
  rw [hacc] at facc
  exact ⟨by simpa [absorbBytes] using facc, fn, by simpa [absorbBytes] using fbuf⟩

/-! ## The snapshot -/

@[simp] theorem snap_length (b : Block) : (snap b).length = 81 := by simp [snap]

theorem npendByte_toNat (n : BitVec 5) : (npendByte n).toNat = n.toNat := by
  have := n.isLt
  simp [npendByte]
  omega

theorem snapshotBuf_getElem (x : Bytes) (i : Nat) (h : i < 32) : (snapshotBuf x)[i] = x.getD i 0 := by
  simp [snapshotBuf]

/-- The buffer a snapshot decodes to is its first 32 bytes. -/
theorem snapshotBuf_toList (x : Bytes) (h : 32 ≤ x.length) : (snapshotBuf x).toList = x.take 32 := by
  apply List.ext_getElem
  · simp; omega
  · intro i h1 h2
    simp only [Vector.length_toList] at h1
    have hi : i < x.length := by simp at h2; omega
    simp [snapshotBuf, hi]

/-! ## The one-shot loop -/

/-- The loop over whole blocks, in terms of the blocks: they are absorbed in turn, the last is the image, what follows
them is left (R110 step 2). -/
theorem oneshotBlocks_flatten (blocks : List Bytes) (t : Quad) (image tail : Bytes)
    (h : ∀ b ∈ blocks, b.length = 32) :
    oneshotBlocks blocks.length t image (blocks.flatten ++ tail)
      = (blocks.foldl absorb1 t, blocks.getLast?.getD image, tail) := by
  induction blocks generalizing t image with
  | nil => rfl
  | cons b bs ih =>
    have hb : b.length = 32 := h b (by simp)
    have ht : (b ++ (bs.flatten ++ tail)).take 32 = b := List.take_left' hb
    have hd : (b ++ (bs.flatten ++ tail)).drop 32 = bs.flatten ++ tail := List.drop_left' hb
    simp only [List.length_cons, oneshotBlocks, List.flatten_cons, List.append_assoc, Config.blockBytes, ht, hd]
    rw [ih _ _ (fun c hc => h c (by simp [hc]))]
    cases bs with
    | nil => rfl
    | cons c cs => rw [List.getLast?_cons_cons, List.foldl_cons]; simp [List.getLast?_cons]

end Sys2Proof.Laws
end

