-- ==== Sys2Proof/Laws/Port.lean ====
section
/-! SUPPORT. What the port's operations do: where the front bytes end, what a frame's bytes split into, and the cases of
what stands at the front of the port. -/

namespace Sys2Proof.Laws

open Sys2Proof.Machine

/-! ## Front bytes -/

@[simp] theorem portBytes_append (x y : Bytes) : portBytes (x ++ y) = portBytes x ++ portBytes y :=
  List.map_append

theorem leadingBytes_portBytes (x : Bytes) (rest : List PortEvent) :
    leadingBytes (portBytes x ++ rest) = x ++ leadingBytes rest := by
  induction x with
  | nil => rfl
  | cons b x ih => exact congrArg (b :: ·) ih

theorem afterBytes_portBytes (x : Bytes) (rest : List PortEvent) :
    afterBytes (portBytes x ++ rest) = afterBytes rest := by
  induction x with
  | nil => rfl
  | cons b x ih => exact ih

/-- The port is its front bytes and what comes after them. -/
theorem front_and_after (rx : List PortEvent) : portBytes (leadingBytes rx) ++ afterBytes rx = rx := by
  induction rx with
  | nil => rfl
  | cons e rx ih =>
    cases e with
    | byte b => exact congrArg (PortEvent.byte b :: ·) ih
    | resetPulse f => rfl

/-- What comes after the front bytes is nothing or a reset pulse. -/
theorem afterBytes_cases (rx : List PortEvent) :
    afterBytes rx = [] ∨ ∃ f rest, afterBytes rx = .resetPulse f :: rest := by
  induction rx with
  | nil => exact .inl rfl
  | cons e rx ih =>
    cases e with
    | byte b => exact ih
    | resetPulse f => exact .inr ⟨f, rx, rfl⟩

/-! ## Frames -/

theorem encodeFrame_length (d : Descriptor) (data : Bytes) : (encodeFrame d data).length = 24 + data.length := by
  simp [encodeFrame]
  omega

theorem headerOf_encodeFrame (d : Descriptor) (data rest : Bytes) : headerOf (encodeFrame d data ++ rest) = d := by
  have h0 := le64_append_enc64 [] d.cmd (enc64 d.arg ++ (enc64 d.len ++ (data ++ rest))) 0 rfl
  have h8 := le64_append_enc64 (enc64 d.cmd) d.arg (enc64 d.len ++ (data ++ rest)) 8 (by simp)
  have h16 := le64_append_enc64 (enc64 d.cmd ++ enc64 d.arg) d.len (data ++ rest) 16 (by simp)
  simp only [List.nil_append, List.append_assoc] at h0 h8 h16
  simp only [headerOf, encodeFrame, List.append_assoc, h0, h8, h16]

/-- A frame's bytes split into the frame and what follows (R63). -/
theorem splitFrame_encodeFrame (d : Descriptor) (data rest : Bytes) (h : data.length = d.len.toNat) :
    splitFrame (encodeFrame d data ++ rest) = .ok (d, data, rest) := by
  have hlen := encodeFrame_length d data
  have hdrop : (encodeFrame d data ++ rest).drop 24 = data ++ rest := by
    simp only [encodeFrame, List.append_assoc]
    rw [← List.append_assoc, ← List.append_assoc]
    exact List.drop_left' (by simp)
  simp only [splitFrame, Config.headerBytes, headerOf_encodeFrame, hdrop]
  rw [if_neg (by simp; omega), if_neg (by simp; omega), List.take_left' h, List.drop_left' h]

/-- The three outcomes of `splitFrame`; where it answers a frame, the bytes are that frame's and what follows. -/
theorem splitFrame_cases (bytes : Bytes) :
    (bytes.length < 24 ∧ splitFrame bytes = .error .incompleteHeader)
    ∨ (24 ≤ bytes.length ∧ bytes.length < 24 + (headerOf bytes).len.toNat
        ∧ splitFrame bytes = .error .incompleteData)
    ∨ (∃ d data rest, 24 + (headerOf bytes).len.toNat ≤ bytes.length ∧ data.length = d.len.toNat
        ∧ bytes = encodeFrame d data ++ rest ∧ splitFrame bytes = .ok (d, data, rest)) := by
  by_cases h1 : bytes.length < 24
  · exact .inl ⟨h1, by simp only [splitFrame, Config.headerBytes, if_pos h1]⟩
  by_cases h2 : bytes.length < 24 + (headerOf bytes).len.toNat
  · refine .inr (.inl ⟨by omega, h2, ?_⟩)
    simp only [splitFrame, Config.headerBytes, if_neg h1]
    rw [if_pos (by simp; omega)]
  · have hb : bytes = encodeFrame (headerOf bytes) ((bytes.drop 24).take (headerOf bytes).len.toNat)
        ++ (bytes.drop 24).drop (headerOf bytes).len.toNat := by
      simp only [encodeFrame, headerOf, List.append_assoc, List.take_append_drop]
      rw [enc64_le64 bytes 0 (by omega), enc64_le64 bytes 8 (by omega), enc64_le64 bytes 16 (by omega)]
      have e8 : bytes.drop 16 = (bytes.drop 16).take 8 ++ bytes.drop 24 := by
        have := List.take_append_drop 8 (bytes.drop 16)
        rw [List.drop_drop] at this
        exact this.symm
      have e16 : bytes.drop 8 = (bytes.drop 8).take 8 ++ bytes.drop 16 := by
        have := List.take_append_drop 8 (bytes.drop 8)
        rw [List.drop_drop] at this
        exact this.symm
      rw [← e8, ← e16]
      exact (List.take_append_drop 8 bytes).symm
    have hl : ((bytes.drop 24).take (headerOf bytes).len.toNat).length = (headerOf bytes).len.toNat := by
      simp
      omega
    refine .inr (.inr ⟨_, _, _, by omega, hl, hb, ?_⟩)
    conv_lhs => rw [hb]
    exact splitFrame_encodeFrame _ _ _ hl

/-! ## What stands at the front of the port -/

/-- A whole frame at the front, no pulse before its response: a command. -/
theorem fetch_frame (d : Descriptor) (data : Bytes) (rest : List PortEvent) (h : data.length = d.len.toNat)
    (hp : rest.head? ≠ some (.resetPulse true)) :
    fetch (portBytes (encodeFrame d data) ++ rest) = .command d data rest := by
  simp only [fetch, leadingBytes_portBytes, afterBytes_portBytes, splitFrame_encodeFrame d data _ h]
  rcases afterBytes_cases rest with ha | ⟨f, r, ha⟩
  · have hr := front_and_after rest
    rw [ha] at hr ⊢
    cases hl : leadingBytes rest with
    | nil => rw [hl] at hr; rw [← hr]
    | cons b bs => rw [hl] at hr; simp only [hr]
  · have hr := front_and_after rest
    rw [ha] at hr ⊢
    cases hl : leadingBytes rest with
    | cons b bs => rw [hl] at hr; simp only [hr]
    | nil =>
      rw [hl] at hr
      cases f with
      | true => exact absurd (by rw [← hr]; rfl) hp
      | false => simp only [hr]

/-- Every case of what stands at the front of the port, with the port's contents in each. -/
theorem fetch_cases (rx : List PortEvent) :
    (rx = [] ∧ fetch rx = .idle)
    ∨ (∃ bytes reason, rx = portBytes bytes ∧ bytes ≠ [] ∧ fetch rx = .waiting reason
        ∧ (bytes.length < 24 ∨ bytes.length < 24 + (headerOf bytes).len.toNat))
    ∨ (∃ bytes f rest, rx = portBytes bytes ++ .resetPulse f :: rest ∧ fetch rx = .resetPulse rest)
    ∨ (∃ d data rest, data.length = d.len.toNat ∧ rx = portBytes (encodeFrame d data) ++ rest
        ∧ rest.head? ≠ some (.resetPulse true) ∧ fetch rx = .command d data rest) := by
  have hrx := front_and_after rx
  rcases splitFrame_cases (leadingBytes rx) with ⟨hlt, hs⟩ | ⟨hge, hlt, hs⟩ | ⟨d, data, more, _, hd, hb, hs⟩
  · rcases afterBytes_cases rx with ha | ⟨f, rest, ha⟩
    · by_cases hl : leadingBytes rx = []
      · refine .inl ⟨by rw [← hrx, hl, ha]; rfl, ?_⟩
        simp only [fetch, hs, ha, if_pos hl]
      · refine .inr (.inl ⟨leadingBytes rx, .awaitingHeader, by rw [ha, List.append_nil] at hrx; exact hrx.symm, hl, ?_, .inl hlt⟩)
        simp only [fetch, hs, ha, if_neg hl, waitFault]
    · refine .inr (.inr (.inl ⟨leadingBytes rx, f, rest, by rw [← ha]; exact hrx.symm, ?_⟩))
      simp only [fetch, hs, ha]
  · rcases afterBytes_cases rx with ha | ⟨f, rest, ha⟩
    · have hl : leadingBytes rx ≠ [] := by
        intro h0
        rw [h0] at hge
        simp at hge
      refine .inr (.inl ⟨leadingBytes rx, .awaitingData, by rw [ha, List.append_nil] at hrx; exact hrx.symm, hl, ?_, .inr hlt⟩)
      simp only [fetch, hs, ha, if_neg hl, waitFault]
    · refine .inr (.inr (.inl ⟨leadingBytes rx, f, rest, by rw [← ha]; exact hrx.symm, ?_⟩))
      simp only [fetch, hs, ha]
  · have hrx' : rx = portBytes (encodeFrame d data) ++ (portBytes more ++ afterBytes rx) := by
      rw [← List.append_assoc, ← portBytes_append, ← hb, hrx]
    by_cases hp : (portBytes more ++ afterBytes rx).head? = some (.resetPulse true)
    · cases more with
      | cons b bs => simp [portBytes] at hp
      | nil =>
        rcases afterBytes_cases rx with ha | ⟨f, rest, ha⟩
        · rw [ha] at hp
          simp [portBytes] at hp
        · rw [ha] at hp hrx'
          have hf : f = true := by simpa [portBytes] using hp
          subst hf
          refine .inr (.inr (.inl ⟨encodeFrame d data, true, rest, hrx', ?_⟩))
          simp only [fetch, hs, ha]
    · refine .inr (.inr (.inr ⟨d, data, _, hd, hrx', hp, ?_⟩))
      have := fetch_frame d data _ hd hp
      rw [← hrx'] at this
      exact this

/-- A whole command is its meaning where it decodes, and E_ILLEGAL_COMMAND with nothing written where it does not
(R68, R162). -/
theorem serve_cases (d : Descriptor) (data : Bytes) (s : State) :
    (∃ i, decodeFrame d data = .ok i ∧ serve exec d data s = exec i s)
    ∨ (∃ e, decodeFrame d data = .error e
        ∧ serve exec d data s = .next { s with tx := s.tx ++ [⟨.illegalCommand, []⟩] }) := by
  cases h : decodeFrame d data with
  | ok i => exact .inl ⟨i, rfl, by simp only [serve, h]⟩
  | error e => exact .inr ⟨e, rfl, by simp only [serve, h]; rfl⟩

end Sys2Proof.Laws
end

