-- ==== Sys2Proof/Laws/PerInstr.lean ====
section
/-! SUPPORT. Facts about every command as syntax, one lemma per constructor: a command's port bytes are the 24-byte header
and its data (spec/30_encoding.md R63, "24 + LEN bytes, fixed by the header"). -/

namespace Sys2Proof.Laws

/-- The length of a command on the port, and the LEN word that announces it (R61, R63). -/
def FrameLength.Statement (i : Instr) : Prop :=
  (encode i).length = 24 + i.data.length ∧ (i.wf = true → i.descriptor.len.toNat = i.data.length)

theorem lenWord_toNat (data : Bytes) (h : lenFits data = true) : (lenWord data).toNat = data.length := by
  simp only [lenFits, decide_eq_true_eq] at h
  simp only [lenWord, BitVec.toNat_ofNat]
  omega

theorem FrameLength.init (seed64 : Word) : FrameLength.Statement (.init seed64) :=
  ⟨Laws.encodeFrame_length _ _, fun _ => rfl⟩

theorem FrameLength.absorb (data : Bytes) : FrameLength.Statement (.absorb data) :=
  ⟨Laws.encodeFrame_length _ _, lenWord_toNat data⟩

theorem FrameLength.digest : FrameLength.Statement .digest := ⟨Laws.encodeFrame_length _ _, fun _ => rfl⟩

theorem FrameLength.reset : FrameLength.Statement .reset := ⟨Laws.encodeFrame_length _ _, fun _ => rfl⟩

theorem FrameLength.exportState : FrameLength.Statement .exportState :=
  ⟨Laws.encodeFrame_length _ _, fun _ => rfl⟩

theorem FrameLength.importState (data : Bytes) : FrameLength.Statement (.importState data) :=
  ⟨Laws.encodeFrame_length _ _, lenWord_toNat data⟩

theorem FrameLength.oneshot (seed32 : BitVec 32) (data : Bytes) : FrameLength.Statement (.oneshot seed32 data) :=
  ⟨Laws.encodeFrame_length _ _, lenWord_toNat data⟩

end Sys2Proof.Laws
end

