-- ==== Sys2Proof/Tests/Slice0.lean ====
section
/-! SUPPORT. Tests: the smoke test of WellFormed, the seven commands' words written out from spec/30_encoding.md R61 to
R66, the spec's own vectors (spec/95_test_vectors.md) one step at a time, and for each statement with hypotheses a
concrete state and operands that meet them. Expected values come from the spec, never from the model. -/

namespace Sys2Proof.Tests

-- a hash of two blocks is a deep term for `decide`
set_option maxRecDepth 20000

open Sys2Proof.Machine

/-- The next state, where there is one. -/
def nextOf : Host.Outcome State Fault Refusal → Option State
  | .next s => some s
  | .fault _ => none
  | .refused _ => none

/-- Whether an outcome is the given fault. -/
def isFault (f : Fault) : Host.Outcome State Fault Refusal → Bool
  | .next _ => false
  | .fault r => r == f
  | .refused _ => false

/-- The last response of an outcome. -/
def answer (o : Host.Outcome State Fault Refusal) : Option Response := (nextOf o).bind (·.tx.getLast?)

/-- A state with the given block and an idle port. -/
def holding (b : Block) : State := { State.reset with block := b }

/-- The reset state with the given bytes on the port. -/
def sent (x : Bytes) : State := { State.reset with rx := portBytes x }

/-- A 24-byte header with small fields: OPC, the next byte of CMD, ARG's first and fifth byte, LEN's first byte. -/
def header (opc rsvd arg0 arg4 len0 : Byte) : Bytes :=
  [opc, rsvd, 0, 0, 0, 0, 0, 0, arg0, 0, 0, 0, arg4, 0, 0, 0, len0, 0, 0, 0, 0, 0, 0, 0]

/-- `seq(a, n)` of R71. -/
def seq (a n : Nat) : Bytes := ByteExpr.bytes (.seq a n)

/-- The block after `INIT seed ; ABSORB x` (R121, R122). -/
def absorbed (seed : Word) (x : Bytes) : Block := absorbBytes (addTotal (constructed seed) x) x

/-- A snapshot of zeros with the given byte 80 (spec/95 1.4). -/
def zeroSnapshot (n : Byte) : Bytes := zeros 80 ++ [n]

/-! ## WellFormed: each check refuses an ill-formed term and takes the longest well-formed one -/

theorem test_wf_refuses_long_absorb : Instr.wf (.absorb (List.replicate (2 ^ 64) 0)) = false := by
  simp only [Instr.wf, lenFits, List.length_replicate]
  decide
theorem test_wf_refuses_long_import : Instr.wf (.importState (List.replicate (2 ^ 64) 0)) = false := by
  simp only [Instr.wf, lenFits, List.length_replicate]
  decide
theorem test_wf_refuses_long_oneshot : Instr.wf (.oneshot 0 (List.replicate (2 ^ 64) 0)) = false := by
  simp only [Instr.wf, lenFits, List.length_replicate]
  decide
theorem test_wf_takes_the_longest : Instr.wf (.absorb (List.replicate (2 ^ 64 - 1) 0)) = true := by
  simp only [Instr.wf, lenFits, List.length_replicate]
  decide

/-! ## Decoding: every command's word written out from R61 and R65 -/

theorem test_decode_init : decode (header 0x01 0 0x27 0x01 0) = .ok (.init 0x0000000100000027, []) := by rfl
theorem test_decode_absorb :
    decode (header 0x02 0 0 0 3 ++ [0xaa, 0xbb, 0xcc, 0xdd]) = .ok (.absorb [0xaa, 0xbb, 0xcc], [0xdd]) := by rfl
theorem test_decode_digest : decode (header 0x03 0 0 0 0) = .ok (.digest, []) := by rfl
theorem test_decode_reset : decode (header 0x04 0 0 0 0) = .ok (.reset, []) := by rfl
theorem test_decode_export : decode (header 0x05 0 0 0 0) = .ok (.exportState, []) := by rfl
theorem test_decode_import : decode (header 0x06 0 0 0 1 ++ [0x55]) = .ok (.importState [0x55], []) := by rfl
theorem test_decode_oneshot : decode (header 0x07 0 0x27 0 2 ++ [1, 2]) = .ok (.oneshot 0x27 [1, 2], []) := by rfl

/-- The ten illegal descriptors of spec/95 2.7. -/
theorem test_illegal_descriptors :
    [(⟨0x00, 0, 0⟩ : Descriptor), ⟨0x08, 0, 0⟩, ⟨0xff, 0, 0⟩, ⟨0x103, 0, 0⟩, ⟨3, 1, 0⟩, ⟨3, 0, 1⟩, ⟨1, 5, 8⟩, ⟨2, 1, 4⟩,
      ⟨6, 1, 10⟩, ⟨7, 0x100000000, 0⟩].all (fun d => !d.legal) = true := by decide
/-- The clauses of `LegalDescriptorsAreTheSevenRows` at their boundaries: ARG and LEN free where R66 leaves them free. -/
theorem test_legal_descriptors :
    [(⟨1, 0xffffffffffffffff, 0⟩ : Descriptor), ⟨2, 0, 0xffffffffffffffff⟩, ⟨3, 0, 0⟩, ⟨4, 0, 0⟩, ⟨5, 0, 0⟩,
      ⟨6, 0, 0xffffffffffffffff⟩, ⟨7, 0xffffffff, 0xffffffffffffffff⟩].all (fun d => d.legal) = true := by decide

/-- The encoder writes program P2's header of step 2 (spec/95 3.2). -/
theorem test_encode_absorb : (encode (.absorb (seq 0 20))).take 24 = header 0x02 0 0 0 0x14 := by decide
theorem test_table_word : decodeTableWord 64 0x07 = some (.oneshot 0 []) ∧ decodeTableWord 64 0x00 = none := by decide

/-! ## The mixing core (spec/95 2.1 to 2.3) -/

theorem test_rotl : rotl 0x0123456789abcdef 14 = 0xd159e26af37bc048 ∧ rotl 0x8000000000000001 40 = 0x0000018000000000 := by
  decide
/-- Rows 4 to 7: each block word's wiring alone. -/
theorem test_round_wiring :
    mixRound ⟨0, 0, 0, 0⟩ ⟨1, 0, 0, 0⟩ 0 = ⟨0, 1, 1, 0⟩ ∧ mixRound ⟨0, 0, 0, 0⟩ ⟨0, 1, 0, 0⟩ 0 = ⟨1, 0, 0, 1⟩
    ∧ mixRound ⟨0, 0, 0, 0⟩ ⟨0, 0, 1, 0⟩ 0 = ⟨1, 1, 1, 0x10001⟩
    ∧ mixRound ⟨0, 0, 0, 0⟩ ⟨0, 0, 0, 1⟩ 0 = ⟨1, 0x10000000001, 1, 1⟩ := by decide
/-- Row 12: every operand busy. -/
theorem test_round_busy :
    mixRound ⟨0x0123456789abcdef, 0xfedcba9876543210, 0x0f1e2d3c4b5a6978, 0x8796a5b4c3d2e1f0⟩ (dec4 (seq 0 32)) 0
      = ⟨0xb658fb9e40a749e9, 0x9ccde9f788e50761, 0x029527ba4cdfb646, 0x672ee11d676dc1c5⟩ := by decide
/-- Row 11 backwards: the inverse gives the operands back. -/
theorem test_round_inverse :
    roundInv ⟨0x000000000200001f, 0x0080140000008027, 0x0000000000008027, 0x00000200020e001f⟩ ⟨5, 6, 7, 8⟩ 9
      = ⟨1, 2, 3, 4⟩ := by decide
theorem test_fin6 :
    fin6 ⟨0, 0, 0, 0⟩ ⟨0, 0, 0, 0⟩ 1
      = ⟨0x54d081af5154ce70, 0xf9b68636bda770db, 0x5fd2973821e31ffc, 0x9bc556521432b130⟩ := by decide

/-! ## One step of each command -/

/-- P1 step 1. -/
theorem test_init : (nextOf (exec (.init 39) State.reset)).map (·.block.acc) = some ⟨0, 0, 0, 0x27⟩ := by decide
/-- P2 step 3: the chunk completes a block and leaves a tail over the block's image. -/
theorem test_absorb_crosses_a_block :
    (nextOf (exec (.absorb (seq 20 15)) (holding (absorbed 7 (seq 0 20))))).map (·.block.acc)
      = some ⟨0x45423f3c3cb63337, 0x27232f2b2f333734, 0x3d3a3734312e2b2f, 0x505629ae2da12421⟩ := by decide
theorem test_absorb_keeps_the_image :
    (nextOf (exec (.absorb (seq 20 15)) (holding (absorbed 7 (seq 0 20))))).map (·.block.buf.toList)
      = some ([0x20, 0x21, 0x22] ++ seq 3 29) := by decide
/-- R155: the tail lies over the true last block. -/
theorem test_digest_overlay :
    enc4 (digestWords (absorbed 0 (List.replicate 32 1 ++ [2])))
      = [0x06, 0xea, 0x9b, 0xf5, 0x6b, 0xd2, 0x8b, 0xcb, 0x0e, 0x63, 0xf6, 0x87, 0xc7, 0xa5, 0x1d, 0x19,
        0x08, 0xb0, 0x20, 0x94, 0x8d, 0x7c, 0x58, 0x74, 0x63, 0xf8, 0x66, 0x83, 0xe8, 0x64, 0xf5, 0xc8] := by
  decide
/-- P3 step 6. -/
theorem test_digest_of_power_on : answer (exec .digest State.reset) = some ⟨.ok, zeros 32⟩ := by decide
/-- R135's example. -/
theorem test_reset : (nextOf (exec .reset (holding (absorbed 39 (zeros 39))))).map (·.block) = some (constructed 39) := by
  decide
/-- P2 step 5, the fields past the buffer. -/
theorem test_export :
    (answer (exec .exportState (holding (absorbed 7 (seq 0 35))))).map (·.rdata.drop 56)
      = some ([0x21, 0x24, 0xa1, 0x2d, 0xae, 0x29, 0x56, 0x50, 7, 0, 0, 0, 0, 0, 0, 0, 0x23, 0, 0, 0, 0, 0, 0, 0, 3]) := by
  decide
/-- The three outcomes of spec/95 1.4. -/
theorem test_import_errors :
    answer (exec (.importState (zeros 80)) State.reset) = some ⟨.importLength, []⟩
    ∧ answer (exec (.importState (zeroSnapshot 0x20)) State.reset) = some ⟨.importCorrupt, []⟩
    ∧ answer (exec (.importState (zeroSnapshot 0x1f)) State.reset) = some ⟨.ok, []⟩ := by decide
/-- R150's example: seed, counter and pending length from their offsets. -/
theorem test_import :
    (nextOf (exec (.importState (zeros 64 ++ [5, 0, 0, 0, 0, 0, 0, 0] ++ [0x21, 0, 0, 0, 0, 0, 0, 0] ++ [1])) State.reset)).map
      (fun s => (s.block.seed, s.block.total, s.block.npend)) = some (5, 33, 1) := by decide
/-- R113: the last block's image pads, not zeros. -/
theorem test_oneshot_overlay : oneshotHash 0 (List.replicate 32 1 ++ [2]) = 0x1c902e9147798df5 := by decide
/-- The reference engine gives the same overlay value, spec/41_oneshot.md R113. -/
theorem test_ph_oneshot_overlay : phOneshot 0 (List.replicate 32 1 ++ [2]) = 0x1c902e9147798df5 := by decide
/-- spec/95 2.4: a seed with bit 31 set is zero-extended. -/
theorem test_oneshot_high_seed : oneshotHash 0xffffffff (seq 0 33) = 0xafb8f5193d4eaed7 := by decide

/-! ## The port -/

/-- spec/95 2.7: the data byte of an illegal DIGEST is thrown away, the next command's bytes stay. -/
theorem test_illegal_data_is_discarded :
    (nextOf (step (sent (header 3 0 0 0 1 ++ [0xee, 0x01])))).map (fun s => (s.rx, s.tx))
      = some ([.byte 0x01], [⟨.illegalCommand, []⟩]) := by decide
theorem test_short_delivery_is_stuck :
    isFault .awaitingData (step (sent (header 2 0 0 0 2 ++ [1]))) = true
    ∧ isFault .awaitingHeader (step (sent (zeros 23))) = true := by decide
theorem test_reset_pulse_abandons :
    (nextOf (step { block := constructed 5, rx := portBytes (header 4 0 0 0 0) ++ [.resetPulse true], tx := [] })).map
      (fun s => (s.block.seed, s.rx, s.tx)) = some (0, [], []) := by decide
theorem test_reset_pulse_after_the_response :
    (nextOf (step { block := constructed 5, rx := portBytes (header 4 0 0 0 0) ++ [.resetPulse false], tx := [] })).map
      (fun s => (s.block.seed, s.rx)) = some (5, [.resetPulse false]) := by decide
theorem test_fetch_word_runs :
    answer (step (State.reset.withFetchWord 64 0x03)) = some ⟨.ok, zeros 32⟩ := by decide

/-! ## The notation (R71, R72; P1, P3) -/

theorem test_assemble_absorb :
    (assembleText "ABSORB fill(1,32) ++ x\"02\"").map (·.map (·.2)) = some [List.replicate 32 1 ++ [2]] := by decide
theorem test_assemble_oneshot :
    assembleText "ONESHOT 0x27, seq(254, 3)" = some [(⟨7, 39, 3⟩, [0xfe, 0xff, 0x00])] := by decide
theorem test_assemble_raw_opcode : assembleText ".word 0x08" = some [(⟨8, 0, 0⟩, [])] := by decide
theorem test_assemble_pseudo :
    (assembleText "HASH256 1, ascii(\"ab\")").map (·.map (·.1.cmd)) = some [1, 2, 3] := by decide
theorem test_assemble_refuses_wide_seed : assembleText "ONESHOT 0x100000000, zeros(1)" = none := by decide

/-! ## Witnesses: states and operands that meet the statements' hypotheses -/

/-- For `DecodeOfEncodeIsTheCommand`, `StepRunsTheDecodedCommand`: a pulse may stand behind, if not in flight. -/
theorem witness_step_runs :
    Instr.wf (.absorb [5]) = true ∧ NoPulseInFlight [.resetPulse false] ∧ NoPulseInFlight []
    ∧ ({ State.reset with rx := portBytes (encode (.absorb [5])) ++ [.resetPulse false] } : State).rx
        = portBytes (encode (.absorb [5])) ++ [.resetPulse false] := by
  refine ⟨by decide, ?_, ?_, rfl⟩ <;> unfold NoPulseInFlight <;> decide

/-- For `DecodedBytesAreTheCommandsEncoding`. -/
theorem witness_decoded_bytes : decode (header 0x03 0 0 0 0 ++ [9]) = .ok (.digest, [9]) := by rfl

/-- For `ErrorsWriteNoStateElement` (both clauses) and the first alternative of `ErrorsAreRecoverable`. -/
theorem witness_errors :
    Descriptor.legal ⟨8, 0, 1⟩ = false ∧ Delivered (⟨8, 0, 1⟩, [7]) ∧ NoPulseInFlight (portBytes [1])
    ∧ importStatus (zeros 80) ≠ .ok ∧ importStatus (zeroSnapshot 0x20) ≠ .ok := by
  refine ⟨by decide, by unfold Delivered; decide, by unfold NoPulseInFlight; decide, by decide, by decide⟩

/-- For the second alternative of `ErrorsAreRecoverable`: a failing IMPORT. -/
theorem witness_failing_import :
    decodeFrame ⟨6, 0, 1⟩ [0] = .ok (.importState [0]) ∧ importStatus [0] ≠ .ok ∧ Delivered (⟨6, 0, 1⟩, [0])
    ∧ Instr.wf .digest = true ∧ NoPulseInFlight [] := by
  refine ⟨rfl, by decide, by unfold Delivered; decide, rfl, by unfold NoPulseInFlight; decide⟩

/-- For `IllegalWinsOverImportErrors` and `ImportChecksLengthThenCorruption`: 80 and 81 bytes, byte 80 at 31 and 32. -/
theorem witness_import_clauses :
    (1 : Word) ≠ 0 ∧ (zeros 80).length < 81
    ∧ (81 ≤ (zeroSnapshot 0x20).length ∧ 32 ≤ ((zeroSnapshot 0x20).getD 80 0).toNat)
    ∧ (81 ≤ (zeroSnapshot 0x1f).length ∧ ((zeroSnapshot 0x1f).getD 80 0).toNat < 32) := by decide

/-- For `ImportRestoresTheSnapshot`, `ResetAfterImportUsesTheImportedSeed`: 81 bytes, and one more. -/
theorem witness_valid_snapshots :
    (81 ≤ (zeroSnapshot 31).length ∧ ((zeroSnapshot 31).getD 80 0).toNat < 32)
    ∧ (81 ≤ (zeroSnapshot 0 ++ [0xff]).length ∧ ((zeroSnapshot 0 ++ [0xff]).getD 80 0).toNat < 32) := by decide

/-- For `ShortDeliveryIsStuck` and the first clause of `HardwareResetAbandonsTheCommand`, at the last missing byte of the
header and of the data. -/
theorem witness_short_delivery :
    (sent []).rx = portBytes [] ∧ (zeros 23 ≠ [] ∧ (zeros 23).length < 24)
    ∧ (24 ≤ (header 2 0 0 0 2 ++ [1]).length
        ∧ (header 2 0 0 0 2 ++ [1]).length < 24 + (headerOf (header 2 0 0 0 2 ++ [1])).len.toNat) := by decide

/-- For the second clause of `HardwareResetAbandonsTheCommand` and the last of `PowerOnState`. -/
theorem witness_pulses :
    Delivered (⟨3, 0, 0⟩, [])
    ∧ ({ State.reset with rx := portBytes (encodeFrame ⟨3, 0, 0⟩ []) ++ .resetPulse true :: [] } : State).rx
        = portBytes (encodeFrame ⟨3, 0, 0⟩ []) ++ .resetPulse true :: []
    ∧ ({ State.reset with rx := [.resetPulse false] } : State).rx = .resetPulse false :: [] := by
  refine ⟨by unfold Delivered; decide, rfl, rfl⟩

/-- For `AbsorbTakesWholeBlocksAndKeepsTheRest`: 20 pending bytes and 15 more are one block and 3 (P2 step 3); 12 more
complete the block; 11 more complete none. -/
theorem witness_absorb_cuts :
    let b := absorbed 7 (seq 0 20)
    (b.buf.toList.take b.npend.toNat ++ seq 20 15 = [seq 0 32].flatten ++ seq 32 3 ∧ (seq 0 32).length = 32
      ∧ (seq 32 3).length < 32)
    ∧ b.buf.toList.take b.npend.toNat ++ seq 20 12 = [seq 0 32].flatten ++ []
    ∧ (b.buf.toList.take b.npend.toNat ++ seq 20 11 = [].flatten ++ seq 0 31 ∧ (seq 0 31).length < 32) := by
  decide

/-- For `OneshotHashesBlocksAndRest`: one block and a rest of 31 bytes; no block and no rest. -/
theorem witness_oneshot_cuts :
    (∀ b ∈ [seq 0 32], b.length = 32) ∧ (seq 32 31).length < 32 ∧ (∀ b ∈ ([] : List Bytes), b.length = 32)
    ∧ ([] : Bytes).length < 32 := by decide

/-- For `OneshotIsTheSumOfTheDigest`, at the longest string: 2^32 - 1 bytes. -/
theorem witness_oneshot_sum : (List.replicate (2 ^ 32 - 1) (0 : Byte)).length < 2 ^ 32 := by
  rw [List.length_replicate]
  decide

/-- For `TotalAgreesWithPendingUntilImport`: each alternative, with an ABSORB, a DIGEST and a failing IMPORT behind. -/
theorem witness_total_agrees :
    (Instr.reset = .reset ∨ ∃ seed, Instr.reset = .init seed) ∧ (Instr.init 5 = .reset ∨ ∃ seed, Instr.init 5 = .init seed)
    ∧ ∀ j ∈ [Instr.absorb [1], .digest, .importState (zeroSnapshot 32)], ¬ ValidImport j := by
  refine ⟨.inl rfl, .inr ⟨5, rfl⟩, ?_⟩
  have h : importStatus (zeroSnapshot 32) ≠ .ok := by decide
  intro j hj
  rintro ⟨x, rfl, hx⟩
  simp only [List.mem_cons, Instr.importState.injEq, reduceCtorEq, List.not_mem_nil, or_false, false_or] at hj
  exact h (hj ▸ hx)

/-- For `StepKeepsTotalInStepUntilImport`: an ABSORB's bytes on the port. -/
theorem witness_total_step :
    InStep (sent (encode (.absorb [5]))).block ∧ ¬ ServesValidImport (sent (encode (.absorb [5])))
    ∧ (nextOf (step (sent (encode (.absorb [5]))))).isSome = true := by
  refine ⟨by unfold InStep; decide, ?_, by decide⟩
  rintro ⟨d, data, rest, i, hf, hd, x, rfl, -⟩
  have h : fetch (sent (encode (.absorb [5]))).rx = .command ⟨2, 0, 1⟩ [5] [] := by decide
  rw [h] at hf
  cases hf
  have h2 : decodeFrame ⟨2, 0, 1⟩ [5] = .ok (.absorb [5]) := rfl
  rw [h2] at hd
  cases hd

/-- For `EveryCommandRefinesPhEngine`: the power-on block, and one with a tail over a block's image. -/
theorem witness_represents :
    Represents (phConstruct 0) Block.powerOn
    ∧ Represents ⟨absorb1 ⟨0, 0, 0, 7⟩ (seq 0 32), seq 32 3, dec4 (seq 0 32), 35, 7⟩ (absorbed 7 (seq 0 35)) := by
  constructor <;> unfold Represents <;> decide

/-- For `RotlMovesEachBitLeft`, at both ends of the amounts. -/
theorem witness_rotl : (0 < 1 ∧ 1 < 64) ∧ (0 < 63 ∧ 63 < 64) := by decide

/-- For `VirtualBlockOverlaysTheTail`, `BlockBytesLandInTheirLanes`, `BlockWordsRoundTrip`, `LittleEndianWords`: 32
bytes, tails of 0 and 31, first and last byte and word. -/
theorem witness_blocks :
    (seq 0 32).length = 32 ∧ (seq 0 31).length < 32 ∧ ([] : Bytes).length < 32 ∧ 0 < 32 ∧ 31 < 32
    ∧ 0 + 8 ≤ (seq 0 32).length ∧ 24 + 8 ≤ (seq 0 32).length := by decide

/-- For `ResponseStreamIsReadable`. -/
theorem witness_responses :
    (⟨.ok, [1]⟩ : Response).rdata.length < 2 ^ 64
    ∧ (⟨.ok, [1]⟩ : Response).bytes ++ [2] = (⟨.ok, [1]⟩ : Response).bytes ++ [2] := ⟨by decide, rfl⟩

/-- For `DigestDoesNotPerturb`: each of the commands that write no state. -/
theorem witness_no_state_written :
    ∀ i ∈ [Instr.exportState, .oneshot 3 [1], .digest], WritesNoState i := by simp [WritesNoState]

/-- For `WrittenByColumn`: a next state of a command that writes nothing and of one that writes SEED. -/
theorem witness_written_by :
    exec .digest State.reset = .next { State.reset with tx := [⟨.ok, enc4 (digestWords Block.powerOn)⟩] }
    ∧ exec (.init 5) State.reset = .next { State.reset with block := constructed 5, tx := [⟨.ok, []⟩] }
    ∧ (constructed 5).seed ≠ Block.powerOn.seed := ⟨rfl, rfl, by decide⟩

/-- For `StepKeepsResponsesSound`, `StepServesThePortInOrder`. -/
theorem witness_step_invariant :
    ResponsesSound { State.reset with tx := [⟨.importLength, []⟩] }
    ∧ step State.reset = .next State.reset := by
  refine ⟨?_, rfl⟩
  unfold ResponsesSound Response.Sound
  decide

/-- For `StreamRunsCommandsInOrder`, `EveryDeliveredCommandTerminates`: two commands; a legal and an illegal frame. -/
theorem witness_streams :
    (∀ i ∈ [Instr.init 7, .absorb [1]], i.wf = true)
    ∧ (sent ([Instr.init 7, .absorb [1]].flatMap encode)).rx = portBytes ([Instr.init 7, .absorb [1]].flatMap encode)
    ∧ (∀ f ∈ [((⟨3, 0, 0⟩ : Descriptor), ([] : Bytes)), (⟨3, 0, 1⟩, [0])], Delivered f)
    ∧ (sent (streamOf [(⟨3, 0, 0⟩, []), (⟨3, 0, 1⟩, [0])])).rx = portBytes (streamOf [(⟨3, 0, 0⟩, []), (⟨3, 0, 1⟩, [0])]) := by
  refine ⟨by decide, rfl, ?_, rfl⟩
  unfold Delivered
  decide

/-- For `AssembledLinesAreLegal`. -/
theorem witness_assembled_line :
    (∀ opc, AsmLine.absorb (.zeros 3) ≠ .rawWord opc)
    ∧ ((⟨2, 0, 3⟩, [0, 0, 0]) : Descriptor × Bytes) ∈ (AsmLine.absorb (.zeros 3)).assemble
    ∧ ([0, 0, 0] : Bytes).length < 2 ^ 64 := ⟨by simp, by decide, by decide⟩

end Sys2Proof.Tests
end

namespace Sys2Proof.Proofs

/-! Proofs about the words of the block and their byte order (spec/00_scope.md R8, R11; R42): O37, O42, O44. -/

open Sys2Proof.Laws Sys2Proof.Machine

/-! ## Rotation (R8) -/

/-- R8's formula. The right-shifted half is below `2 ^ 64` as it stands, so reducing the whole reduces the other half. -/
theorem rotl_toNat (x : Word) (r : Nat) :
    (rotl x r).toNat = (x.toNat * 2 ^ r ||| x.toNat / 2 ^ (64 - r)) % 2 ^ 64 := by
  have hlow : x.toNat / 2 ^ (64 - r) < 2 ^ 64 := lt_of_le_of_lt (Nat.div_le_self _ _) x.isLt
  rw [Nat.or_mod_two_pow, Nat.mod_eq_of_lt hlow]
  simp only [rotl, BitVec.toNat_or, BitVec.toNat_shiftLeft, BitVec.toNat_ushiftRight, Nat.shiftLeft_eq,
    Nat.shiftRight_eq_div_pow]

/-- The low `r` bits of a rotation are the top `r` bits of the word. -/
theorem rotl_getLsbD_of_lt (x : Word) (r i : Nat) (hr : r ≤ 64) (h : i < r) :
    (rotl x r).getLsbD i = x.getLsbD (i + 64 - r) := by
  have hidx : 64 - r + i = i + 64 - r := by omega
  rw [rotl, BitVec.getLsbD_or, BitVec.getLsbD_shiftLeft, BitVec.getLsbD_ushiftRight, hidx]
  simp only [h, decide_true, Bool.not_true, Bool.and_false, Bool.false_and, Bool.false_or]

/-- The other bits of a rotation are the low bits of the word, moved up by `r`. -/
theorem rotl_getLsbD_of_le (x : Word) (r i : Nat) (hi : i < 64) (h : r ≤ i) :
    (rotl x r).getLsbD i = x.getLsbD (i - r) := by
  have hout : x.getLsbD (64 - r + i) = false := BitVec.getLsbD_of_ge _ _ (by omega)
  rw [rotl, BitVec.getLsbD_or, BitVec.getLsbD_shiftLeft, BitVec.getLsbD_ushiftRight, hout]
  simp only [hi, Nat.not_lt.mpr h, decide_true, decide_false, Bool.not_false, Bool.true_and, Bool.or_false]

/-- Settles O37: the bits below the amount come from the right shift, the others from the left shift. -/
theorem rotlMovesEachBitLeft : Obligations.RotlMovesEachBitLeft := by
  intro x r _ hr
  refine ⟨rotl_toNat x r, fun i hi => ?_⟩
  rcases Nat.lt_or_ge i r with h | h
  · rw [rotl_getLsbD_of_lt x r i hr.le h, Nat.mod_eq_of_lt (by omega)]
  · have hmod : (i + 64 - r) % 64 = i - r := by omega
    rw [rotl_getLsbD_of_le x r i hi h, hmod]

/-! ## Bytes of words (R11) -/

/-- The value of a byte string, written as R11 writes it. -/
theorem fromLE_eq_sum (x : Bytes) :
    fromLE x = ∑ j ∈ Finset.range x.length, (x.getD j 0).toNat * 2 ^ (8 * j) := by
  induction x with
  | nil => rfl
  | cons b bs ih =>
    have hshift (j : Nat) : ((b :: bs).getD (j + 1) 0).toNat * 2 ^ (8 * (j + 1))
        = 256 * ((bs.getD j 0).toNat * 2 ^ (8 * j)) := by
      rw [List.getD_cons_succ, Nat.mul_succ, Nat.pow_add]
      ring
    simp only [fromLE, ih, List.length_cons, Finset.sum_range_succ', hshift, ← Finset.mul_sum]
    simp [Nat.add_comm]

/-- Eight bytes fit a word, so `LE64` loses nothing of their value. -/
theorem le64_toNat (x : Bytes) (o : Nat) : (le64 x o).toNat = fromLE ((x.drop o).take 8) := by
  have hlt := fromLE_lt ((x.drop o).take 8)
  have hle : 256 ^ ((x.drop o).take 8).length ≤ 256 ^ 8 :=
    Nat.pow_le_pow_right (by decide) (List.length_take_le _ _)
  simp only [le64, BitVec.toNat_ofNat]
  exact Nat.mod_eq_of_lt (by omega)

/-- `LE64` as R11 writes it. -/
theorem le64_toNat_eq_sum (x : Bytes) (o : Nat) (h : o + 8 ≤ x.length) :
    (le64 x o).toNat = ∑ j ∈ Finset.range 8, (x.getD (o + j) 0).toNat * 2 ^ (8 * j) := by
  have hlen : ((x.drop o).take 8).length = 8 := by simp; omega
  rw [le64_toNat, fromLE_eq_sum, hlen]
  refine Finset.sum_congr rfl fun j hj => ?_
  have hbyte : ((x.drop o).take 8).getD j 0 = x.getD (o + j) 0 := by
    simp [List.getD_eq_getElem?_getD, List.getElem?_take_of_lt (Finset.mem_range.mp hj)]
  rw [hbyte]

/-- Byte `j` of a number's little-endian string. -/
theorem toLE_getElem? (k n j : Nat) (h : j < k) : (toLE k n)[j]? = some (BitVec.ofNat 8 (n / 256 ^ j)) := by
  induction k generalizing n j with
  | zero => omega
  | succ k ih =>
    cases j with
    | zero => simp [toLE]
    | succ j => rw [toLE, List.getElem?_cons_succ, ih _ _ (by omega), Nat.div_div_eq_div_mul, Nat.pow_succ']

/-- Byte `j` of `Enc64(v)` is `v[8j+7 : 8j]` (R11). -/
theorem enc64_getElem? (v : Word) (j : Nat) (h : j < 8) : (enc64 v)[j]? = some (v.extractLsb' (8 * j) 8) := by
  rw [enc64, toLE_getElem? 8 _ j h]
  congr 1
  apply BitVec.eq_of_toNat_eq
  rw [BitVec.toNat_ofNat, BitVec.extractLsb'_toNat, Nat.shiftRight_eq_div_pow, Nat.pow_mul]

/-- Settles O42: `LE64` by its sum, `Enc64` byte by byte; the model builds `Dec4` and `Enc4` as R11 writes them. -/
theorem littleEndianWords : Obligations.LittleEndianWords :=
  ⟨le64_toNat_eq_sum, fun v => ⟨enc64_length v, enc64_getElem? v⟩, fun _ _ => rfl, fun _ => rfl⟩

/-! ## Four words and 32 bytes (R11, R42) -/

/-- Each word of a tuple stands in `Enc4` behind the words before it, where `Dec4` reads it. -/
theorem dec4_enc4 (q : Quad) : dec4 (enc4 q) = q := by
  have h0 := le64_append_enc64 [] q.w0 (enc64 q.w1 ++ (enc64 q.w2 ++ enc64 q.w3)) 0 rfl
  have h1 := le64_append_enc64 (enc64 q.w0) q.w1 (enc64 q.w2 ++ enc64 q.w3) 8 (by simp)
  have h2 := le64_append_enc64 (enc64 q.w0 ++ enc64 q.w1) q.w2 (enc64 q.w3) 16 (by simp)
  have h3 := le64_append_enc64 (enc64 q.w0 ++ (enc64 q.w1 ++ enc64 q.w2)) q.w3 [] 24 (by simp)
  simp only [List.nil_append, List.append_nil, List.append_assoc] at h0 h1 h2 h3
  simp only [dec4, enc4, List.append_assoc, h0, h1, h2, h3]

/-- The encoding of a word read from a string, before the bytes that follow the word, is the string from there on. -/
theorem enc64_le64_append_drop (x : Bytes) (o : Nat) (h : o + 8 ≤ x.length) :
    enc64 (le64 x o) ++ x.drop (o + 8) = x.drop o := by
  rw [enc64_le64 x o h, ← List.drop_drop, List.take_append_drop]

/-- The four encoded words of a 32-byte string are its four quarters, in order. -/
theorem enc4_dec4 (x : Bytes) (h : x.length = 32) : enc4 (dec4 x) = x := by
  have hword (o : Nat) (ho : o + 8 ≤ 32) := enc64_le64_append_drop x o (by omega)
  have hend : x.drop (24 + 8) = [] := List.drop_of_length_le (by omega)
  have hlast := hword 24 (by omega)
  rw [hend, List.append_nil] at hlast
  calc enc4 (dec4 x)
      = enc64 (le64 x 0) ++ (enc64 (le64 x 8) ++ (enc64 (le64 x 16) ++ enc64 (le64 x 24))) := by
        simp only [enc4, dec4, List.append_assoc]
    _ = x := by
        rw [hlast, hword 16 (by omega), hword 8 (by omega), hword 0 (by omega), List.drop_zero]

/-- Settles O44. -/
theorem blockWordsRoundTrip : Obligations.BlockWordsRoundTrip := ⟨dec4_enc4, enc4_dec4⟩

end Sys2Proof.Proofs

namespace Sys2Proof.Proofs

/-! Proofs about the state elements and what the commands write to them (spec/10_state.md R22, R25, R26, R33): O29, O30,
O31, O32, O47, O59. -/

open Sys2Proof.Laws Sys2Proof.Machine

/-! ## What each command and each step gives -/

theorem exec_init (seed : Word) (s : State) :
    exec (.init seed) s = .next { s with block := constructed seed, tx := s.tx ++ [⟨.ok, []⟩] } := rfl

theorem exec_absorb (data : Bytes) (s : State) :
    exec (.absorb data) s = .next
      { s with
        block := absorbBytes (addTotal s.block data) data
        tx := s.tx ++ [⟨.ok, enc64 (lenWord data)⟩] } := rfl

theorem exec_digest (s : State) :
    exec .digest s = .next { s with tx := s.tx ++ [⟨.ok, enc4 (digestWords s.block)⟩] } := rfl

theorem exec_reset (s : State) :
    exec .reset s = .next { s with block := constructed s.block.seed, tx := s.tx ++ [⟨.ok, []⟩] } := rfl

theorem exec_exportState (s : State) :
    exec .exportState s = .next { s with tx := s.tx ++ [⟨.ok, snap s.block⟩] } := rfl

theorem exec_oneshot (seed32 : BitVec 32) (data : Bytes) (s : State) :
    exec (.oneshot seed32 data) s = .next { s with tx := s.tx ++ [⟨.ok, enc64 (oneshotHash seed32 data)⟩] } := rfl

theorem exec_importState_of_ok (data : Bytes) (s : State) (h : importStatus data = .ok) :
    exec (.importState data) s = .next { s with block := unsnap data, tx := s.tx ++ [⟨.ok, []⟩] } := by
  simp only [exec, execImport, h, complete_eq]

/-- A failing IMPORT raises its status and writes no state element (R151, R163). -/
theorem exec_importState_of_ne_ok (data : Bytes) (s : State) (h : importStatus data ≠ .ok) :
    exec (.importState data) s = .next { s with tx := s.tx ++ [⟨importStatus data, []⟩] } := by
  rcases importStatus_cases data with ⟨_, hc⟩ | ⟨_, _, hc⟩ | ⟨_, _, hc⟩
  · simp only [exec, execImport, hc, raise_eq]
  · simp only [exec, execImport, hc, raise_eq]
  · exact absurd hc h

/-- Everything a step that is taken can be: idle, a hardware reset, a decoded command, an illegal frame. -/
theorem step_cases {s t : State} (h : step s = .next t) :
    (fetch s.rx = .idle ∧ t = s)
    ∨ (∃ rest, fetch s.rx = .resetPulse rest ∧ t = hardwareReset s rest)
    ∨ (∃ d data rest i, fetch s.rx = .command d data rest ∧ decodeFrame d data = .ok i
        ∧ exec i { s with rx := rest } = .next t)
    ∨ (∃ d data rest e, fetch s.rx = .command d data rest ∧ decodeFrame d data = .error e
        ∧ t = { s with rx := rest, tx := s.tx ++ [⟨.illegalCommand, []⟩] }) := by
  unfold step at h
  cases hf : fetch s.rx with
  | idle =>
    simp only [hf, Host.Outcome.next.injEq] at h
    exact .inl ⟨rfl, h.symm⟩
  | waiting reason => simp [hf] at h
  | resetPulse rest =>
    simp only [hf, Host.Outcome.next.injEq] at h
    exact .inr (.inl ⟨rest, rfl, h.symm⟩)
  | command d data rest =>
    simp only [hf] at h
    rcases serve_cases d data { s with rx := rest } with ⟨i, hd, hs⟩ | ⟨e, hd, hs⟩
    · exact .inr (.inr (.inl ⟨d, data, rest, i, rfl, hd, hs.symm.trans h⟩))
    · rw [hs, Host.Outcome.next.injEq] at h
      exact .inr (.inr (.inr ⟨d, data, rest, e, rfl, hd, h.symm⟩))

/-! ## Who writes what (R22) -/

/-- Settles O47: each command's next state shows the elements it writes. -/
theorem writtenByColumn : Obligations.WrittenByColumn := by
  intro i s t h
  cases i with
  | init seed => exact ⟨False.elim, fun _ => .inl ⟨seed, rfl⟩, fun _ => .inl ⟨seed, rfl⟩⟩
  | importState data =>
    exact ⟨False.elim, fun _ => .inr ⟨data, rfl⟩, fun _ => .inr (.inr (.inr ⟨data, rfl⟩))⟩
  | reset =>
    cases (exec_reset s).symm.trans h
    exact ⟨False.elim, fun hne => absurd rfl hne, fun _ => .inr (.inl rfl)⟩
  | absorb data =>
    cases (exec_absorb data s).symm.trans h
    exact ⟨False.elim, fun hne => absurd (by simp) hne, fun _ => .inr (.inr (.inl ⟨data, rfl⟩))⟩
  | digest =>
    cases (exec_digest s).symm.trans h
    exact ⟨fun _ => rfl, fun hne => absurd rfl hne, fun hne => absurd rfl hne⟩
  | exportState =>
    cases (exec_exportState s).symm.trans h
    exact ⟨fun _ => rfl, fun hne => absurd rfl hne, fun hne => absurd rfl hne⟩
  | oneshot seed32 data =>
    cases (exec_oneshot seed32 data s).symm.trans h
    exact ⟨fun _ => rfl, fun hne => absurd rfl hne, fun hne => absurd rfl hne⟩

/-! ## TOTAL and NPEND (R33) -/

/-- One byte moves `NPEND` on by one around its 32 values. -/
theorem absorbByte_npend_toNat (b : Block) (d : Byte) :
    (absorbByte b d).npend.toNat = (b.npend.toNat + 1) % 32 := by
  have hlt := npend_lt b
  rcases Nat.lt_or_ge (b.npend.toNat + 1) 32 with h | h
  · rw [(absorbByte_of_lt b d h).2, Nat.mod_eq_of_lt h]
  · have hfull : b.npend.toNat + 1 = 32 := by omega
    obtain ⟨-, hzero, -⟩ := absorbByte_of_full b d hfull
    rw [hzero, hfull]
    rfl

theorem absorbBytes_npend_toNat (b : Block) (x : Bytes) :
    (absorbBytes b x).npend.toNat = (b.npend.toNat + x.length) % 32 := by
  induction x generalizing b with
  | nil => exact (Nat.mod_eq_of_lt (npend_lt b)).symm
  | cons d x ih =>
    rw [absorbBytes_cons, ih, absorbByte_npend_toNat, List.length_cons]
    omega

theorem inStep_constructed (seed : Word) : InStep (constructed seed) := rfl

theorem inStep_powerOn : InStep Block.powerOn := rfl

/-- ABSORB keeps the agreement also where `TOTAL` wraps, since 32 divides 2^64. -/
theorem inStep_absorb (b : Block) (x : Bytes) (h : InStep b) : InStep (absorbBytes (addTotal b x) x) := by
  unfold InStep at h ⊢
  rw [absorbBytes_npend_toNat, absorbBytes_total, addTotal_total, addTotal_npend, lenWord, BitVec.toNat_add,
    BitVec.toNat_ofNat]
  omega

/-- Every command but a valid IMPORT completes and keeps the agreement. -/
theorem exec_keeps_inStep (i : Instr) (s : State) (h : InStep s.block) (hv : ¬ ValidImport i) :
    ∃ t, exec i s = .next t ∧ InStep t.block := by
  cases i with
  | init seed => exact ⟨_, exec_init seed s, inStep_constructed seed⟩
  | absorb data => exact ⟨_, exec_absorb data s, inStep_absorb s.block data h⟩
  | digest => exact ⟨_, exec_digest s, h⟩
  | reset => exact ⟨_, exec_reset s, inStep_constructed s.block.seed⟩
  | exportState => exact ⟨_, exec_exportState s, h⟩
  | importState data => exact ⟨_, exec_importState_of_ne_ok data s fun hok => hv ⟨data, rfl, hok⟩, h⟩
  | oneshot seed32 data => exact ⟨_, exec_oneshot seed32 data s, h⟩

/-- Settles O59: of the four things a step can be, only a valid IMPORT could break the agreement. -/
theorem stepKeepsTotalInStepUntilImport : Obligations.StepKeepsTotalInStepUntilImport := by
  intro s t h hv hstep
  rcases step_cases hstep with
    ⟨-, rfl⟩ | ⟨rest, -, rfl⟩ | ⟨d, data, rest, i, hf, hd, hex⟩ | ⟨d, data, rest, e, -, -, rfl⟩
  · exact h
  · exact inStep_powerOn
  · have hi : ¬ ValidImport i := fun hi => hv ⟨d, data, rest, i, hf, hd, hi⟩
    obtain ⟨u, hu, hin⟩ := exec_keeps_inStep i { s with rx := rest } h hi
    cases hu.symm.trans hex
    exact hin
  · exact h

theorem execAll_cons_of_next {i : Instr} {s t : State} (more : List Instr) (h : exec i s = .next t) :
    execAll (i :: more) s = execAll more t := by
  simp only [execAll, h]

theorem execAll_keeps_inStep (cmds : List Instr) (s : State) (h : InStep s.block)
    (hv : ∀ j ∈ cmds, ¬ ValidImport j) : ∃ t, execAll cmds s = .next t ∧ InStep t.block := by
  induction cmds generalizing s with
  | nil => exact ⟨s, rfl, h⟩
  | cons i more ih =>
    obtain ⟨hi, hmore⟩ := List.forall_mem_cons.mp hv
    obtain ⟨u, hu, hin⟩ := exec_keeps_inStep i s h hi
    rw [execAll_cons_of_next more hu]
    exact ih u hin hmore

/-- Settles O29: INIT and RESET construct a block in agreement, whatever stood there, and the later commands keep it. -/
theorem totalAgreesWithPendingUntilImport : Obligations.TotalAgreesWithPendingUntilImport := by
  rintro s i later (rfl | ⟨seed, rfl⟩) hv
  · rw [execAll_cons_of_next later (exec_reset s)]
    exact execAll_keeps_inStep later _ (inStep_constructed _) hv
  · rw [execAll_cons_of_next later (exec_init seed s)]
    exact execAll_keeps_inStep later _ (inStep_constructed seed) hv

/-- Settles O30: a snapshot of zeros but for `NPEND`, which is 1. -/
theorem importCanBreakTheAgreement : Obligations.ImportCanBreakTheAgreement := by
  refine ⟨zeros 80 ++ [1], _, exec_importState_of_ok _ _ (by decide), ?_⟩
  unfold InStep
  decide

/-! ## Blocks and PH's engines (R25, R26) -/

/-- A string's own first bytes laid on it change nothing (R99). -/
theorem vblock_take (image : Bytes) (n : Nat) (h : n ≤ image.length) : vblock image (image.take n) = image := by
  rw [vblock, List.length_take, Nat.min_eq_left h, List.take_append_drop]

/-- Settles O32: the engine whose tail is the pending bytes and whose cache is the whole buffer. -/
theorem everyBlockHoldsSomePhEngine : Obligations.EveryBlockHoldsSomePhEngine := by
  intro b
  have hlt := npend_lt b
  have hlen : (b.buf.toList.take b.npend.toNat).length = b.npend.toNat := by simp; omega
  refine ⟨⟨b.acc, b.buf.toList.take b.npend.toNat, dec4 b.buf.toList, b.total, b.seed⟩,
    hlen.trans_lt hlt, hlen.symm, ?_, rfl, rfl, rfl⟩
  rw [phVirtual, enc4_dec4 _ (buf_toList_length b), vblock_take _ _ (by simp; omega)]

theorem represents_construct (seed : Word) : Represents (phConstruct seed) (constructed seed) :=
  have hbuf : (Vector.replicate 32 (0 : Byte)).toList = vblock (enc4 ⟨0, 0, 0, 0⟩) [] := by decide
  ⟨Nat.zero_lt_succ _, rfl, hbuf, rfl, rfl, rfl⟩

/-! ### ABSORB: byte by byte against block by block (R124, R126) -/

/-- The pending bytes of the buffer are the engine's tail. -/
theorem take_npend_of_represents {e : PhEngine} {b : Block} (h : Represents e b) :
    b.buf.toList.take b.npend.toNat = e.tail := by
  obtain ⟨-, hn, hbuf, -⟩ := h
  rw [hbuf, hn, phVirtual, vblock, List.take_left]

/-- Bytes that complete no block extend the tail (R126; conflict C6). -/
theorem represents_extend {e : PhEngine} {b : Block} (x : Bytes) (h : Represents e b)
    (hx : e.tail.length + x.length < 32) : Represents { e with tail := e.tail ++ x } (absorbBytes b x) := by
  have htake := take_npend_of_represents h
  obtain ⟨-, hn, hbuf, hacc, htotal, hseed⟩ := h
  obtain ⟨hacc', hn', hbuf'⟩ := absorbBytes_of_lt b x (by omega)
  refine ⟨by simpa using hx, by rw [hn', hn, List.length_append], ?_, hacc'.trans hacc, ?_, ?_⟩
  · rw [hbuf', htake, hbuf, hn, phVirtual, phVirtual, vblock, vblock, List.length_append, List.append_assoc,
      ← List.drop_drop, List.drop_left, List.drop_drop, List.append_assoc]
  · rw [absorbBytes_total, htotal]
  · rw [absorbBytes_seed, hseed]

/-- Bytes that complete a block: tail and bytes are absorbed, and become the cache under an empty tail (R126). -/
theorem represents_fill {e : PhEngine} {b : Block} (x : Bytes) (h : Represents e b)
    (hx : e.tail.length + x.length = 32) :
    Represents { phBlock e (e.tail ++ x) with tail := [] } (absorbBytes b x) := by
  have htake := take_npend_of_represents h
  obtain ⟨-, hn, -, hacc, htotal, hseed⟩ := h
  obtain ⟨hacc', hn', hbuf'⟩ := absorbBytes_of_full b x (by omega)
  rw [htake] at hacc' hbuf'
  refine ⟨by simp, by rw [hn']; rfl, ?_, by rw [hacc', hacc]; rfl, ?_, ?_⟩
  · rw [hbuf', phVirtual]
    exact (enc4_dec4 (e.tail ++ x) (by simpa using hx)).symm
  · rw [absorbBytes_total, htotal]; rfl
  · rw [absorbBytes_seed, hseed]; rfl

/-- Whole blocks and a leftover, from an empty tail. `phBlocks` never reads the tail it finds, only replaces it. -/
theorem represents_phBlocks (n : Nat) (e : PhEngine) (b : Block) (data : Bytes)
    (h : Represents { e with tail := [] } b) (hn : data.length / 32 = n) :
    Represents (phBlocks n e data) (absorbBytes b data) := by
  induction n generalizing e b data with
  | zero => exact represents_extend data h (by simp; omega)
  | succ n ih =>
    have hfirst : (data.take 32).length = 32 := by simp; omega
    have hblock : Represents { phBlock e (data.take 32) with tail := [] } (absorbBytes b (data.take 32)) :=
      represents_fill (e := { e with tail := [] }) (data.take 32) h (by simpa using hfirst)
    have hrest := ih (phBlock e (data.take 32)) _ (data.drop 32) hblock (by rw [List.length_drop]; omega)
    rwa [← absorbBytes_append, List.take_append_drop] at hrest

theorem represents_phFeed {e : PhEngine} {b : Block} (data : Bytes) (h : Represents e b) :
    Represents (phFeed e data) (absorbBytes b data) := by
  have ⟨hlt, _⟩ := h
  simp only [phFeed, Config.blockBytes] at hlt ⊢
  split
  case isTrue htail => exact represents_phBlocks _ e b data (by rwa [← htail]) rfl
  split
  case isTrue hshort => exact represents_extend data h (by omega)
  case isFalse hlong =>
    have hfill := represents_fill (data.take (32 - e.tail.length)) h (by simp; omega)
    have hrest := represents_phBlocks _ _ _ (data.drop (32 - e.tail.length)) hfill rfl
    rwa [← absorbBytes_append, List.take_append_drop, List.length_drop] at hrest

/-- Counting the data on both sides (R123). -/
theorem represents_addTotal {e : PhEngine} {b : Block} (data : Bytes) (h : Represents e b) :
    Represents { e with total := e.total + lenWord data } (addTotal b data) := by
  obtain ⟨hlt, hn, hbuf, hacc, htotal, hseed⟩ := h
  exact ⟨hlt, hn, hbuf, hacc, congrArg (· + lenWord data) htotal, hseed⟩

/-! ### Snapshots (R73 to R76, R155) -/

theorem snap_eq_phExport {e : PhEngine} {b : Block} (h : Represents e b) : snap b = phExport e := by
  obtain ⟨-, hn, hbuf, hacc, htotal, hseed⟩ := h
  have hbyte : npendByte b.npend = BitVec.ofNat 8 e.tail.length := by
    rw [npendByte, ← hn, BitVec.ofNat_toNat]
  rw [snap, phExport, hbuf, hacc, hseed, htotal, hbyte]

/-- `Dec4` reads the first 32 bytes. -/
theorem dec4_take (x : Bytes) : dec4 (x.take 32) = dec4 x := by
  simp (disch := omega) only [dec4, le64_take]

theorem le64_drop (x : Bytes) (n o : Nat) : le64 (x.drop n) o = le64 x (n + o) := by
  rw [le64, le64, List.drop_drop]

/-- The block a valid snapshot decodes to holds the engine PH's import gives. -/
theorem represents_phImport (x : Bytes) (hlen : 81 ≤ x.length) (hn : (x.getD 80 0).toNat < 32) :
    Represents (phImport x) (unsnap x) := by
  have htail : (x.take (x.getD 80 0).toNat).length = (x.getD 80 0).toNat := by
    rw [List.length_take]; omega
  have himage : enc4 (dec4 x) = x.take 32 := by
    rw [← dec4_take, enc4_dec4 _ (by rw [List.length_take]; omega)]
  have hprefix : x.take (x.getD 80 0).toNat = (x.take 32).take (x.getD 80 0).toNat := by
    rw [List.take_take, Nat.min_eq_left (by omega)]
  refine ⟨htail.trans_lt hn, ?_, ?_, ?_, rfl, rfl⟩
  · rw [unsnap_npend, BitVec.toNat_setWidth, Nat.mod_eq_of_lt hn]
    exact htail.symm
  · rw [unsnap_buf, snapshotBuf_toList x (by omega), phVirtual, phImport, himage, hprefix,
      vblock_take _ _ (by rw [List.length_take]; omega)]
  · simp only [unsnap_acc, phImport, dec4, le64_drop, Nat.reduceAdd]

/-! ### ONESHOT: blocks cut off in turn against buffer offsets (R110) -/

/-- The loop's last turn, where its definition shows the first. -/
theorem oneshotBlocks_succ (n : Nat) (t : Quad) (image data : Bytes) :
    oneshotBlocks (n + 1) t image data =
      (absorb1 (oneshotBlocks n t image data).1 ((oneshotBlocks n t image data).2.2.take 32),
        (oneshotBlocks n t image data).2.2.take 32, (oneshotBlocks n t image data).2.2.drop 32) := by
  induction n generalizing t image data with
  | zero => rfl
  | succ n ih => exact ih _ _ _

theorem oneshotBlocks_eq_phOneshotAfter (data : Bytes) (m : Nat) (h : 32 * m ≤ data.length) :
    oneshotBlocks m ⟨0, 0, 0, lenWord data⟩ (zeros 32) data
      = ((phOneshotAfter data m).1, enc4 (phOneshotAfter data m).2, data.drop (32 * m)) := by
  induction m with
  | zero =>
    have hzero : zeros 32 = enc4 ⟨0, 0, 0, 0⟩ := by decide
    simp only [oneshotBlocks, phOneshotAfter, hzero, Nat.mul_zero, List.drop_zero]
  | succ m ih =>
    have hblock : ((data.drop (32 * m)).take 32).length = 32 := by simp; omega
    rw [oneshotBlocks_succ, ih (by omega)]
    simp only [phOneshotAfter, Config.blockBytes, enc4_dec4 _ hblock, List.drop_drop, Nat.mul_succ]

theorem oneshotHash_eq_phOneshot (seed32 : BitVec 32) (data : Bytes) :
    oneshotHash seed32 data = phOneshot seed32 data := by
  simp only [oneshotHash, phOneshot, Config.blockBytes,
    oneshotBlocks_eq_phOneshotAfter data _ (Nat.mul_div_le data.length 32), oneshotScalar, BitVec.ofNat_toNat]

/-! ### Every command -/

theorem digestWords_eq_ph {e : PhEngine} {b : Block} (h : Represents e b) :
    digestWords b = fin6 e.acc (dec4 (phVirtual e)) e.total := by
  obtain ⟨-, -, hbuf, hacc, htotal, -⟩ := h
  rw [digestWords, hbuf, hacc, htotal]

/-- IMPORT makes PH's checks in PH's order (R151). -/
theorem importState_refines (e : PhEngine) (s : State) (data : Bytes) (h : Represents e s.block) :
    ∃ t, exec (.importState data) s = .next t ∧ t.rx = s.rx
      ∧ t.tx = s.tx ++ [(phRun e (.importState data)).1] ∧ Represents (phRun e (.importState data)).2 t.block := by
  rcases importStatus_cases data with ⟨hshort, hc⟩ | ⟨hlen, hbad, hc⟩ | ⟨hlen, hgood, hc⟩
  · have hph : phRun e (.importState data) = (⟨.importLength, []⟩, e) := if_pos hshort
    exact ⟨_, exec_importState_of_ne_ok data s (by simp [hc]), rfl, by rw [hph, hc], by rwa [hph]⟩
  · have hph : phRun e (.importState data) = (⟨.importCorrupt, []⟩, e) :=
      (if_neg (Nat.not_lt.mpr hlen)).trans (if_pos hbad)
    exact ⟨_, exec_importState_of_ne_ok data s (by simp [hc]), rfl, by rw [hph, hc], by rwa [hph]⟩
  · have hph : phRun e (.importState data) = (⟨.ok, []⟩, phImport data) :=
      (if_neg (Nat.not_lt.mpr hlen)).trans (if_neg (Nat.not_le.mpr hgood))
    refine ⟨_, exec_importState_of_ok data s hc, rfl, by rw [hph], ?_⟩
    rw [hph]
    exact represents_phImport data hlen hgood

/-- Settles O31: per command, the machine's answer is PH's and the new block holds PH's new engine. -/
theorem everyCommandRefinesPhEngine : Obligations.EveryCommandRefinesPhEngine := by
  intro e s i h
  cases i with
  | init seed => exact ⟨_, exec_init seed s, rfl, rfl, represents_construct seed⟩
  | absorb data => exact ⟨_, exec_absorb data s, rfl, rfl, represents_phFeed data (represents_addTotal data h)⟩
  | digest => exact ⟨_, exec_digest s, rfl, by rw [digestWords_eq_ph h]; rfl, h⟩
  | reset =>
    obtain ⟨-, -, -, -, -, hseed⟩ := h
    exact ⟨_, exec_reset s, rfl, rfl, by rw [hseed]; exact represents_construct e.seed⟩
  | exportState => exact ⟨_, exec_exportState s, rfl, by rw [snap_eq_phExport h]; rfl, h⟩
  | importState data => exact importState_refines e s data h
  | oneshot seed32 data =>
    exact ⟨_, exec_oneshot seed32 data s, rfl, by rw [oneshotHash_eq_phOneshot]; rfl, h⟩

end Sys2Proof.Proofs

namespace Sys2Proof.Proofs

/-! Proofs about byte lanes, repetition and the order of commands (spec/20_memory.md R43, R47, R48): O6, O43, O48, O51,
O52. -/

open Sys2Proof.Laws Sys2Proof.Machine

/-! ## A command from its bytes on the port (R60, R63, R66) -/

/-- No command's descriptor has a reserved bit set (R65). -/
theorem descriptor_rsvd (i : Instr) : i.descriptor.rsvd = 0 := by
  have hcmd : i.opcode.toNat < 256 := by cases i <;> simp [Instr.opcode]
  exact (rsvd_eq_zero_iff i.descriptor).mpr hcmd

/-- Every command's descriptor is legal: each operand that R66 wants zero for the command's opcode is zero. -/
theorem legal_descriptor (i : Instr) : i.descriptor.legal = true := by
  have hrsvd := descriptor_rsvd i
  have hopc : i.descriptor.opc = i.opcode.setWidth 8 := rfl
  have harg : i.descriptor.arg = i.argWord := rfl
  have hlen : i.descriptor.len = lenWord i.data := rfl
  cases i with
  | oneshot seed32 data =>
    obtain ⟨-, hhigh⟩ := seed32_in_arg seed32
    have hhigh : (Instr.oneshot seed32 data).descriptor.argHigh = 0 := hhigh
    simp [Descriptor.legal, hrsvd, hopc, hhigh, Instr.opcode]
  | init seed => simp [Descriptor.legal, hrsvd, hopc, hlen, Instr.opcode, Instr.data, lenWord]
  | absorb data => simp [Descriptor.legal, hrsvd, hopc, harg, Instr.opcode, Instr.argWord]
  | importState data => simp [Descriptor.legal, hrsvd, hopc, harg, Instr.opcode, Instr.argWord]
  | digest => rfl
  | reset => rfl
  | exportState => rfl

/-- A command's own descriptor and data select it, whatever the data's length (R65, R69). -/
theorem decodeFrame_descriptor (i : Instr) : decodeFrame i.descriptor i.data = .ok i := by
  rw [decodeFrame, if_pos (legal_descriptor i)]
  cases i with
  | oneshot seed32 data =>
    obtain ⟨hlow, -⟩ := seed32_in_arg seed32
    exact congrArg (fun seed => Except.ok (Instr.oneshot seed data)) hlow
  | init seed => rfl
  | absorb data => rfl
  | digest => rfl
  | reset => rfl
  | exportState => rfl
  | importState data => rfl

/-- LEN announces a well-formed command's data (R61, R62). -/
theorem data_length_of_wf (i : Instr) (h : i.wf = true) : i.data.length = i.descriptor.len.toNat := by
  cases i with
  | init seed => rfl
  | absorb data => exact (lenWord_toNat data h).symm
  | digest => rfl
  | reset => rfl
  | exportState => rfl
  | importState data => exact (lenWord_toNat data h).symm
  | oneshot seed32 data => exact (lenWord_toNat data h).symm

/-- Settles O6: the front of the port is the command's frame, and the frame decodes to the command. -/
theorem stepRunsTheDecodedCommand : Obligations.StepRunsTheDecodedCommand := by
  intro s i rest hwf hpulse hrx
  have hfetch : fetch s.rx = .command i.descriptor i.data rest := by
    rw [hrx]
    exact fetch_frame i.descriptor i.data rest (data_length_of_wf i hwf) hpulse
  simp only [step, hfetch, serve, decodeFrame_descriptor]

/-! ## Lanes (R43) -/

/-- Byte `j` of the word at offset `o` is byte `o + j` of the string. -/
theorem le64_extractLsb' (x : Bytes) (o j : Nat) (ho : o + 8 ≤ x.length) (hj : j < 8) :
    some ((le64 x o).extractLsb' (8 * j) 8) = x[o + j]? := by
  rw [← enc64_getElem? _ j hj, enc64_le64 x o ho, List.getElem?_take_of_lt hj, List.getElem?_drop]

/-- Word `k` of a block is the word at offset `8 k` (R11). -/
theorem dec4_getElem? (x : Bytes) (k : Nat) (hk : k < 4) :
    [(dec4 x).w0, (dec4 x).w1, (dec4 x).w2, (dec4 x).w3][k]? = some (le64 x (8 * k)) := by
  match k, hk with
  | 0, _ => rfl
  | 1, _ => rfl
  | 2, _ => rfl
  | 3, _ => rfl

/-- Settles O43: byte `i` is byte `i mod 8` of the word at offset `8 (i div 8)`. -/
theorem blockBytesLandInTheirLanes : Obligations.BlockBytesLandInTheirLanes := by
  intro x i hx hi
  rw [dec4_getElem? x (i / 8) (by omega), Option.map_some,
    le64_extractLsb' x _ _ (by omega) (Nat.mod_lt _ (by decide)), Nat.div_add_mod]

/-! ## What a command reads and writes (R46, R48) -/

/-- Every command completes. Its new block and its one answer come from the old block alone; what stands on the port and
the answers before its own are neither read nor written. -/
theorem exec_reads_block_only (i : Instr) :
    ∃ (f : Block → Block) (r : Block → Response),
      ∀ s, exec i s = .next { s with block := f s.block, tx := s.tx ++ [r s.block] } := by
  cases i with
  | init seed => exact ⟨fun _ => constructed seed, fun _ => ⟨.ok, []⟩, exec_init seed⟩
  | absorb data =>
    exact ⟨fun b => absorbBytes (addTotal b data) data, fun _ => ⟨.ok, enc64 (lenWord data)⟩, exec_absorb data⟩
  | digest => exact ⟨id, fun b => ⟨.ok, enc4 (digestWords b)⟩, exec_digest⟩
  | reset => exact ⟨fun b => constructed b.seed, fun _ => ⟨.ok, []⟩, exec_reset⟩
  | exportState => exact ⟨id, fun b => ⟨.ok, snap b⟩, exec_exportState⟩
  | importState data =>
    by_cases h : importStatus data = .ok
    · exact ⟨fun _ => unsnap data, fun _ => ⟨.ok, []⟩, fun s => exec_importState_of_ok data s h⟩
    · exact ⟨id, fun _ => ⟨importStatus data, []⟩, fun s => exec_importState_of_ne_ok data s h⟩
  | oneshot seed32 data => exact ⟨id, fun _ => ⟨.ok, enc64 (oneshotHash seed32 data)⟩, exec_oneshot seed32 data⟩

/-! ## Repeated commands (R47) -/

/-- Two ABSORBs in a row leave the block that one ABSORB of both strings leaves (R127). -/
theorem absorb_twice (b : Block) (x y : Bytes) :
    absorbBytes (addTotal (absorbBytes (addTotal b x) x) y) y = absorbBytes (addTotal b (x ++ y)) (x ++ y) := by
  rw [absorbBytes_append, ← addTotal_append, ← absorbBytes_addTotal]

/-- Commands that write no element or write what SEED and their operands fix: once or twice is the same (R47). -/
theorem exec_block_idempotent {i : Instr} {s t u : State} (hne : ∀ data, i ≠ .absorb data) (ht : exec i s = .next t)
    (hu : exec i t = .next u) : u.block = t.block := by
  cases i with
  | init seed =>
    cases (exec_init seed s).symm.trans ht
    cases (exec_init seed _).symm.trans hu
    rfl
  | absorb data => exact absurd rfl (hne data)
  | digest =>
    cases (exec_digest t).symm.trans hu
    rfl
  | reset =>
    cases (exec_reset s).symm.trans ht
    cases (exec_reset _).symm.trans hu
    rfl
  | exportState =>
    cases (exec_exportState t).symm.trans hu
    rfl
  | importState data =>
    by_cases h : importStatus data = .ok
    · cases (exec_importState_of_ok data s h).symm.trans ht
      cases (exec_importState_of_ok data _ h).symm.trans hu
      rfl
    · cases (exec_importState_of_ne_ok data t h).symm.trans hu
      rfl
  | oneshot seed32 data =>
    cases (exec_oneshot seed32 data t).symm.trans hu
    rfl

/-- Settles O48: but for ABSORB a command is idempotent on the block; two ABSORBs are one of both strings. -/
theorem repeatedCommands : Obligations.RepeatedCommands := by
  intro s i
  have hcompletes (s : State) : ∃ t, exec i s = .next t :=
    have ⟨_, _, hexec⟩ := exec_reads_block_only i
    ⟨_, hexec s⟩
  obtain ⟨t, ht⟩ := hcompletes s
  obtain ⟨u, hu⟩ := hcompletes t
  refine ⟨t, u, ht, (execAll_cons_of_next [i] ht).trans (execAll_cons_of_next [] hu),
    fun hne => exec_block_idempotent hne ht hu, ?_⟩
  rintro data rfl
  cases (exec_absorb data s).symm.trans ht
  cases (exec_absorb data _).symm.trans hu
  exact ⟨_, exec_absorb (data ++ data) s, absorb_twice s.block data data⟩

/-! ## The port in order (R48, R184) -/

/-- A command is taken from the front of the port. -/
theorem rx_of_fetch_command {rx rest : List PortEvent} {d : Descriptor} {data : Bytes}
    (h : fetch rx = .command d data rest) : rx = portBytes (encodeFrame d data) ++ rest := by
  rcases fetch_cases rx with ⟨-, hf⟩ | ⟨_, _, -, -, hf, -⟩ | ⟨_, _, _, -, hf⟩ | ⟨_, _, _, -, hrx, -, hf⟩
  · cases hf.symm.trans h
  · cases hf.symm.trans h
  · cases hf.symm.trans h
  · cases hf.symm.trans h
    exact hrx

/-- A reset pulse is taken together with the bytes before it. -/
theorem rx_of_fetch_resetPulse {rx rest : List PortEvent} (h : fetch rx = .resetPulse rest) :
    ∃ bytes inFlight, rx = portBytes bytes ++ .resetPulse inFlight :: rest := by
  rcases fetch_cases rx with
    ⟨-, hf⟩ | ⟨_, _, -, -, hf, -⟩ | ⟨bytes, inFlight, _, hrx, hf⟩ | ⟨_, _, _, -, -, -, hf⟩
  · cases hf.symm.trans h
  · cases hf.symm.trans h
  · cases hf.symm.trans h
    exact ⟨bytes, inFlight, hrx⟩
  · cases hf.symm.trans h

/-- Settles O51, for each of the four things a step can be: only a command answers, and once. -/
theorem stepServesThePortInOrder : Obligations.StepServesThePortInOrder := by
  intro s t hstep
  rcases step_cases hstep with
    ⟨-, rfl⟩ | ⟨rest, hf, rfl⟩ | ⟨d, data, rest, i, hf, -, hex⟩ | ⟨d, data, rest, e, hf, -, rfl⟩
  · exact ⟨List.suffix_rfl, List.prefix_rfl, Nat.le_succ _⟩
  · obtain ⟨bytes, inFlight, hrx⟩ := rx_of_fetch_resetPulse hf
    exact ⟨⟨portBytes bytes ++ [.resetPulse inFlight], by simp [hrx]⟩, List.prefix_rfl, Nat.le_succ _⟩
  · obtain ⟨f, r, hexec⟩ := exec_reads_block_only i
    cases (hexec _).symm.trans hex
    exact ⟨⟨_, (rx_of_fetch_command hf).symm⟩, List.prefix_append _ _, by simp⟩
  · exact ⟨⟨_, (rx_of_fetch_command hf).symm⟩, List.prefix_append _ _, by simp⟩

/-! ## A stream of commands (R48) -/

/-- Bytes alone hold no reset pulse. -/
theorem noPulseInFlight_portBytes (x : Bytes) : NoPulseInFlight (portBytes x) := by
  cases x with
  | nil => simp [NoPulseInFlight, portBytes]
  | cons b x => simp [NoPulseInFlight, portBytes]

theorem run_succ_of_next (k : Nat) {s t : State} (h : step s = .next t) :
    Sys2Proof.core.run (k + 1) s = Sys2Proof.core.run k t := by
  have hcore : Sys2Proof.core.step s = .next t := h
  simp only [Host.Core.run, hcore]

/-- Settles O52, by induction on the commands: a step runs the first with the others' bytes left on the port, which the
command does not read. -/
theorem streamRunsCommandsInOrder : Obligations.StreamRunsCommandsInOrder := by
  intro s cmds hwf hrx
  induction cmds generalizing s with
  | nil =>
    obtain ⟨block, _, tx⟩ := s
    cases hrx
    rfl
  | cons i more ih =>
    obtain ⟨hi, hmore⟩ := List.forall_mem_cons.mp hwf
    obtain ⟨f, r, hexec⟩ := exec_reads_block_only i
    rw [List.flatMap_cons, portBytes_append] at hrx
    have hstep := stepRunsTheDecodedCommand s i _ hi (noPulseInFlight_portBytes _) hrx
    rw [List.length_cons, run_succ_of_next _ (hstep.trans (hexec _)), execAll_cons_of_next more (hexec _)]
    exact ih _ hmore rfl

end Sys2Proof.Proofs

namespace Sys2Proof.Proofs

/-! Proofs about descriptors, frames, responses, snapshots and assembled lines (spec/30_encoding.md): O1 to O5, O24, O25,
O45, O46, O49, O50, O55 to O58. -/

open Sys2Proof.Laws Sys2Proof.Machine

/-! ## Legal descriptors (R66, R67, R68) -/

/-- R66's clauses with CMD's two fields as one number. -/
theorem legal_iff_clauses (d : Descriptor) :
    d.legal = true ↔
      (1 ≤ d.cmd.toNat ∧ d.cmd.toNat ≤ 7)
        ∧ (2 ≤ d.cmd.toNat → d.cmd.toNat ≤ 6 → d.arg = 0)
        ∧ (d.cmd.toNat = 7 → d.arg.toNat < 2 ^ 32)
        ∧ (d.cmd.toNat = 1 ∨ d.cmd.toNat = 3 ∨ d.cmd.toNat = 4 ∨ d.cmd.toNat = 5 → d.len = 0) := by
  by_cases hcmd : d.cmd.toNat < 256
  · have hopc : d.opc.toNat = d.cmd.toNat := by rw [opc_toNat, Nat.mod_eq_of_lt hcmd]
    have hrsvd : d.rsvd = 0#56 := (rsvd_eq_zero_iff d).mpr hcmd
    have hhigh := argHigh_eq_zero_iff d
    simp [Descriptor.legal, hrsvd, hhigh, BitVec.toNat_eq (x := d.opc), hopc, imp_iff_not_or, or_assoc, and_assoc]
  · have hrsvd : d.rsvd ≠ 0#56 := fun h => hcmd ((rsvd_eq_zero_iff d).mp h)
    have hlegal : d.legal = false := by simp [Descriptor.legal, hrsvd]
    simp only [hlegal, Bool.false_eq_true, false_iff]
    omega

/-- The seven rows of opcode_table.json: CMD is a match word, and ARG and LEN meet its row's constraints. -/
theorem legal_iff_rows (d : Descriptor) :
    d.legal = true ↔
      (d.cmd = 1 ∧ d.len = 0) ∨ (d.cmd = 2 ∧ d.arg = 0) ∨ (d.cmd = 3 ∧ d.arg = 0 ∧ d.len = 0)
        ∨ (d.cmd = 4 ∧ d.arg = 0 ∧ d.len = 0) ∨ (d.cmd = 5 ∧ d.arg = 0 ∧ d.len = 0)
        ∨ (d.cmd = 6 ∧ d.arg = 0) ∨ (d.cmd = 7 ∧ d.arg.toNat < 2 ^ 32) := by
  rw [legal_iff_clauses]
  simp only [BitVec.toNat_eq (x := d.cmd), BitVec.toNat_ofNat, BitVec.ofNat_eq_ofNat, Nat.reducePow, Nat.reduceMod]
  by_cases hrange : 1 ≤ d.cmd.toNat ∧ d.cmd.toNat ≤ 7
  · obtain ⟨hlow, hhigh⟩ := hrange
    interval_cases d.cmd.toNat <;> simp
  · simp only [hrange, false_and, false_iff]
    omega

/-! ### What each row decodes to (R65, R69) -/

theorem decodeFrame_init (arg : Word) (data : Bytes) : decodeFrame ⟨1, arg, 0⟩ data = .ok (.init arg) :=
  if_pos ((legal_iff_rows _).mpr (.inl ⟨rfl, rfl⟩))

theorem decodeFrame_absorb (len : Word) (data : Bytes) : decodeFrame ⟨2, 0, len⟩ data = .ok (.absorb data) :=
  if_pos ((legal_iff_rows _).mpr (.inr (.inl ⟨rfl, rfl⟩)))

theorem decodeFrame_digest (data : Bytes) : decodeFrame ⟨3, 0, 0⟩ data = .ok .digest := rfl

theorem decodeFrame_reset (data : Bytes) : decodeFrame ⟨4, 0, 0⟩ data = .ok .reset := rfl

theorem decodeFrame_exportState (data : Bytes) : decodeFrame ⟨5, 0, 0⟩ data = .ok .exportState := rfl

theorem decodeFrame_importState (len : Word) (data : Bytes) :
    decodeFrame ⟨6, 0, len⟩ data = .ok (.importState data) :=
  if_pos ((legal_iff_rows _).mpr (.inr (.inr (.inr (.inr (.inr (.inl ⟨rfl, rfl⟩)))))))

/-- ONESHOT's LEN is free and its ARG is a zero-extended seed (R66, R69). -/
theorem decodeFrame_oneshot (seed32 : BitVec 32) (len : Word) (data : Bytes) :
    decodeFrame ⟨7, seed32.setWidth 64, len⟩ data = .ok (.oneshot seed32 data) := by
  obtain ⟨hlow, -⟩ := seed32_in_arg seed32
  have harg : (seed32.setWidth 64 : Word).toNat < 2 ^ 32 := by simp; omega
  have hlegal : Descriptor.legal ⟨7, seed32.setWidth 64, len⟩ = true :=
    (legal_iff_rows _).mpr (.inr (.inr (.inr (.inr (.inr (.inr ⟨rfl, harg⟩))))))
  rw [decodeFrame, if_pos hlegal]
  exact congrArg (fun seed => Except.ok (Instr.oneshot seed data)) hlow

/-- A legal descriptor, put together from its row's operands. -/
theorem rows_of_legal {d : Descriptor} (h : d.legal = true) :
    (∃ arg, d = ⟨1, arg, 0⟩) ∨ (∃ len, d = ⟨2, 0, len⟩) ∨ d = ⟨3, 0, 0⟩ ∨ d = ⟨4, 0, 0⟩ ∨ d = ⟨5, 0, 0⟩
      ∨ (∃ len, d = ⟨6, 0, len⟩) ∨ ∃ (seed32 : BitVec 32) (len : Word), d = ⟨7, seed32.setWidth 64, len⟩ := by
  obtain ⟨cmd, arg, len⟩ := d
  rcases (legal_iff_rows _).mp h with
    ⟨rfl, rfl⟩ | ⟨rfl, rfl⟩ | ⟨rfl, rfl, rfl⟩ | ⟨rfl, rfl, rfl⟩ | ⟨rfl, rfl, rfl⟩ | ⟨rfl, rfl⟩ | ⟨rfl, hseed⟩
  · exact .inl ⟨arg, rfl⟩
  · exact .inr (.inl ⟨len, rfl⟩)
  · exact .inr (.inr (.inl rfl))
  · exact .inr (.inr (.inr (.inl rfl)))
  · exact .inr (.inr (.inr (.inr (.inl rfl))))
  · exact .inr (.inr (.inr (.inr (.inr (.inl ⟨len, rfl⟩)))))
  · have harg : arg = (arg.setWidth 32).setWidth 64 := by
      apply BitVec.eq_of_toNat_eq
      simp only [BitVec.toNat_setWidth] at hseed ⊢
      omega
    exact .inr (.inr (.inr (.inr (.inr (.inr ⟨arg.setWidth 32, len, by rw [← harg]⟩)))))

/-- Every legal descriptor decodes, whatever its data (R68). -/
theorem decodeFrame_of_legal {d : Descriptor} (data : Bytes) (h : d.legal = true) :
    ∃ i, decodeFrame d data = .ok i := by
  rcases rows_of_legal h with
    ⟨arg, rfl⟩ | ⟨len, rfl⟩ | rfl | rfl | rfl | ⟨len, rfl⟩ | ⟨seed32, len, rfl⟩
  · exact ⟨_, decodeFrame_init arg data⟩
  · exact ⟨_, decodeFrame_absorb len data⟩
  · exact ⟨_, decodeFrame_digest data⟩
  · exact ⟨_, decodeFrame_reset data⟩
  · exact ⟨_, decodeFrame_exportState data⟩
  · exact ⟨_, decodeFrame_importState len data⟩
  · exact ⟨_, decodeFrame_oneshot seed32 len data⟩

/-- Settles O3. -/
theorem legalDescriptorsAreTheSevenRows : Obligations.LegalDescriptorsAreTheSevenRows :=
  fun d data => ⟨legal_iff_rows d, decodeFrame_of_legal data, decodeFrame_of_not_legal d data⟩

/-- Settles O4, row by row; zero-extending `seed32` to the scalar keeps its value. -/
theorem descriptorsSelectTheirOperands : Obligations.DescriptorsSelectTheirOperands := by
  intro arg len seed32 data
  refine ⟨decodeFrame_init arg [], decodeFrame_absorb len data, decodeFrame_digest [], decodeFrame_reset [],
    decodeFrame_exportState [], decodeFrame_importState len data, ?_, ?_⟩
  · rw [BitVec.ofNat_toNat]
    exact decodeFrame_oneshot seed32 len data
  · exact BitVec.toNat_setWidth_of_le (by decide)

/-! ## Commands and their bytes (R61, R63) -/

/-- Decoding takes one frame off the front, which decodes (R63, R68). -/
theorem decode_eq_ok_iff (bytes rest : Bytes) (i : Instr) :
    decode bytes = .ok (i, rest) ↔
      ∃ d data, splitFrame bytes = .ok (d, data, rest) ∧ decodeFrame d data = .ok i := by
  constructor
  · intro h
    unfold decode at h
    cases hs : splitFrame bytes with
    | error e => simp [hs] at h
    | ok frame =>
      obtain ⟨d, data, more⟩ := frame
      cases hd : decodeFrame d data with
      | error e => simp [hs, hd] at h
      | ok j =>
        simp only [hs, hd, Except.ok.injEq, Prod.mk.injEq] at h
        obtain ⟨rfl, rfl⟩ := h
        exact ⟨d, data, rfl, hd⟩
  · rintro ⟨d, data, hs, hd⟩
    simp only [decode, hs, hd]

/-- Settles O1: the command's bytes split into its own frame, which decodes to it. -/
theorem decodeOfEncodeIsTheCommand : Obligations.DecodeOfEncodeIsTheCommand := by
  intro i rest hwf
  have hsplit : splitFrame (encode i ++ rest) = .ok (i.descriptor, i.data, rest) :=
    splitFrame_encodeFrame i.descriptor i.data rest (data_length_of_wf i hwf)
  exact (decode_eq_ok_iff _ _ _).mpr ⟨i.descriptor, i.data, hsplit, decodeFrame_descriptor i⟩

/-- A data string delivered in full fits LEN, and its LEN word is the descriptor's (R61, R62). -/
theorem lenWord_of_length_eq {data : Bytes} {len : Word} (h : data.length = len.toNat) :
    lenFits data = true ∧ lenWord data = len := by
  constructor
  · exact decide_eq_true (h ▸ len.isLt)
  · rw [lenWord, h, BitVec.ofNat_toNat, BitVec.setWidth_eq]

/-- A delivered frame that decodes to a command is that command's own frame. -/
theorem frame_of_decodeFrame {d : Descriptor} {data : Bytes} {i : Instr} (hlen : data.length = d.len.toNat)
    (h : decodeFrame d data = .ok i) : i.wf = true ∧ (d, data) = frameOf i := by
  have ⟨hfits, hword⟩ := lenWord_of_length_eq hlen
  have hnil (h0 : d.len = 0) : data = [] := List.length_eq_zero_iff.mp (by rw [hlen, h0]; rfl)
  rcases rows_of_legal (legal_of_decodeFrame d data i h) with
    ⟨arg, rfl⟩ | ⟨len, rfl⟩ | rfl | rfl | rfl | ⟨len, rfl⟩ | ⟨seed32, len, rfl⟩
  · cases (decodeFrame_init arg data).symm.trans h
    cases hnil rfl
    exact ⟨rfl, rfl⟩
  · cases (decodeFrame_absorb len data).symm.trans h
    exact ⟨hfits, by cases hword; rfl⟩
  · cases (decodeFrame_digest data).symm.trans h
    cases hnil rfl
    exact ⟨rfl, rfl⟩
  · cases (decodeFrame_reset data).symm.trans h
    cases hnil rfl
    exact ⟨rfl, rfl⟩
  · cases (decodeFrame_exportState data).symm.trans h
    cases hnil rfl
    exact ⟨rfl, rfl⟩
  · cases (decodeFrame_importState len data).symm.trans h
    exact ⟨hfits, by cases hword; rfl⟩
  · cases (decodeFrame_oneshot seed32 len data).symm.trans h
    exact ⟨hfits, by cases hword; rfl⟩

/-- Settles O2: the frame taken off the front is the command's own. -/
theorem decodedBytesAreTheCommandsEncoding : Obligations.DecodedBytesAreTheCommandsEncoding := by
  intro bytes rest i h
  obtain ⟨d, data, hs, hd⟩ := (decode_eq_ok_iff bytes rest i).mp h
  rcases splitFrame_cases bytes with ⟨-, he⟩ | ⟨-, -, he⟩ | ⟨d', data', rest', -, hlen, hbytes, hok⟩
  · cases he.symm.trans hs
  · cases he.symm.trans hs
  · cases hok.symm.trans hs
    obtain ⟨hwf, hframe⟩ := frame_of_decodeFrame hlen hd
    cases hframe
    exact ⟨hwf, hbytes⟩

/-- Settles O5: closed headers, decoded by evaluation. -/
theorem writtenHeadersDecode : Obligations.WrittenHeadersDecode := ⟨rfl, rfl, rfl, rfl⟩

/-! ## Responses (R64, R65) -/

/-- IMPORT's checks never raise E_ILLEGAL_COMMAND (R164). -/
theorem importStatus_ne_illegalCommand (data : Bytes) : importStatus data ≠ .illegalCommand := by
  rcases importStatus_cases data with ⟨-, hc⟩ | ⟨-, -, hc⟩ | ⟨-, -, hc⟩ <;> simp [hc]

/-- Settles O45: each command's one answer; of the seven only IMPORT can fail, with one of its own two codes. -/
theorem everyCommandGivesOneResponse : Obligations.EveryCommandGivesOneResponse := by
  intro i s
  have hok : Status.ok ≠ .illegalCommand := by decide
  cases i with
  | init seed => exact ⟨_, _, exec_init seed s, rfl, rfl, fun _ => rfl, absurd rfl, hok⟩
  | absorb data => exact ⟨_, _, exec_absorb data s, rfl, rfl, fun _ => enc64_length _, absurd rfl, hok⟩
  | digest => exact ⟨_, _, exec_digest s, rfl, rfl, fun _ => enc4_length _, absurd rfl, hok⟩
  | reset => exact ⟨_, _, exec_reset s, rfl, rfl, fun _ => rfl, absurd rfl, hok⟩
  | exportState => exact ⟨_, _, exec_exportState s, rfl, rfl, fun _ => snap_length _, absurd rfl, hok⟩
  | importState data =>
    by_cases h : importStatus data = .ok
    · exact ⟨_, _, exec_importState_of_ok data s h, rfl, rfl, fun _ => rfl, absurd rfl, hok⟩
    · exact ⟨_, _, exec_importState_of_ne_ok data s h, rfl, rfl, fun _ => rfl, fun _ => rfl,
        importStatus_ne_illegalCommand data⟩
  | oneshot seed32 data =>
    exact ⟨_, _, exec_oneshot seed32 data s, rfl, rfl, fun _ => enc64_length _, absurd rfl, hok⟩

theorem rdataLength_mem (i : Instr) : rdataLength i ∈ [0, 8, 32, 81] := by
  cases i <;> simp [rdataLength]

/-- An answer with no bytes is sound whatever its status (R163). -/
theorem sound_of_rdata_nil (c : Status) : Response.Sound ⟨c, []⟩ := ⟨fun _ => rfl, by simp⟩

/-- Every command completes with one sound answer. -/
theorem exec_answers_sound (i : Instr) (s : State) :
    ∃ (t : State) (r : Response), exec i s = .next t ∧ t.tx = s.tx ++ [r] ∧ r.Sound := by
  obtain ⟨t, r, hexec, htx, -, hok, herr, -⟩ := everyCommandGivesOneResponse i s
  refine ⟨t, r, hexec, htx, herr, ?_⟩
  by_cases hstatus : r.status = .ok
  · rw [hok hstatus]
    exact rdataLength_mem i
  · simp [herr hstatus]

theorem responsesSound_append {s t : State} {r : Response} (h : ResponsesSound s) (htx : t.tx = s.tx ++ [r])
    (hr : r.Sound) : ResponsesSound t := by
  intro q hq
  rw [htx, List.mem_append, List.mem_singleton] at hq
  rcases hq with hold | rfl
  · exact h q hold
  · exact hr

/-- Settles O49, for each of the four things a step can be: only a command and an illegal frame answer. -/
theorem stepKeepsResponsesSound : Obligations.StepKeepsResponsesSound := by
  intro s t h hstep
  rcases step_cases hstep with
    ⟨-, rfl⟩ | ⟨rest, -, rfl⟩ | ⟨d, data, rest, i, -, -, hex⟩ | ⟨d, data, rest, e, -, -, rfl⟩
  · exact h
  · exact h
  · obtain ⟨u, r, hu, htx, hr⟩ := exec_answers_sound i { s with rx := rest }
    cases hu.symm.trans hex
    exact responsesSound_append h htx hr
  · exact responsesSound_append h rfl (sound_of_rdata_nil _)

/-- Settles O50. -/
theorem resetHasSoundResponses : Obligations.ResetHasSoundResponses :=
  fun _ hr => absurd hr List.not_mem_nil

/-! ### Reading the response stream (R64) -/

theorem code_injective : Function.Injective Status.code := by
  intro a b h
  cases a <;> cases b <;> simp [Status.code] at h ⊢

/-- A word is read back from its eight bytes. -/
theorem enc64_injective : Function.Injective enc64 := by
  have hread : Function.LeftInverse (le64 · 0) enc64 := fun v => by
    simpa using le64_append_enc64 [] v [] 0 rfl
  exact hread.injective

/-- Equal LEN words announce equally long strings, as long as both lengths fit (R61). -/
theorem length_eq_of_lenWord_eq {x y : Bytes} (hx : x.length < 2 ^ 64) (hy : y.length < 2 ^ 64)
    (h : lenWord x = lenWord y) : x.length = y.length := by
  rw [← lenWord_toNat x (decide_eq_true hx), h, lenWord_toNat y (decide_eq_true hy)]

/-- Settles O46: the status byte, then the eight length bytes, then as many bytes as they say. -/
theorem responseStreamIsReadable : Obligations.ResponseStreamIsReadable := by
  rintro ⟨c, x⟩ ⟨c', y⟩ rest more hx hy h
  simp only [Response.bytes, List.cons_append, List.append_assoc, List.cons.injEq] at h
  obtain ⟨hcode, htail⟩ := h
  obtain ⟨hword, hdata⟩ := List.append_inj htail (by simp)
  have hlen : x.length = y.length := length_eq_of_lenWord_eq hx hy (enc64_injective hword)
  obtain ⟨rfl, rfl⟩ := List.append_inj hdata hlen
  cases code_injective hcode
  exact ⟨rfl, rfl⟩

/-! ## The snapshot (R73 to R77) -/

/-- `BUF` stands at offset 0 (R73). -/
theorem snap_take_buf (b : Block) : (snap b).take 32 = b.buf.toList := by
  simp only [snap, List.append_assoc]
  exact List.take_left' (buf_toList_length b)

/-- The accumulators stand at offsets 32 to 63, as `Enc4` writes them (R73). -/
theorem dec4_snap_drop (b : Block) : dec4 ((snap b).drop 32) = b.acc := by
  have hdrop : (snap b).drop 32
      = enc4 b.acc ++ (enc64 b.seed ++ (enc64 b.total ++ [npendByte b.npend])) := by
    simp only [snap, List.append_assoc]
    exact List.drop_left' (buf_toList_length b)
  rw [hdrop, ← dec4_take, List.take_left' (enc4_length b.acc), dec4_enc4]

theorem le64_snap_seed (b : Block) : le64 (snap b) 64 = b.seed := by
  have h := le64_append_enc64 (b.buf.toList ++ enc4 b.acc) b.seed (enc64 b.total ++ [npendByte b.npend]) 64 (by simp)
  simpa only [snap, List.append_assoc] using h

theorem le64_snap_total (b : Block) : le64 (snap b) 72 = b.total := by
  have h := le64_append_enc64 (b.buf.toList ++ enc4 b.acc ++ enc64 b.seed) b.total [npendByte b.npend] 72 (by simp)
  simpa only [snap, List.append_assoc] using h

/-- `byte(NPEND)` is the last byte, with the value of `NPEND` (R73, R75). -/
theorem snap_getD_npend (b : Block) : ((snap b).getD 80 0).toNat = b.npend.toNat := by
  have hfront : (b.buf.toList ++ enc4 b.acc ++ enc64 b.seed ++ enc64 b.total).length = 80 := by simp
  rw [snap, List.getD_append_right _ _ _ _ hfront.le, hfront]
  exact npendByte_toNat b.npend

/-- Settles O24, field by field. -/
theorem exportAnswersTheSnapshotLayout : Obligations.ExportAnswersTheSnapshotLayout := by
  intro s
  have hacc (k : Nat) : le64 ((snap s.block).drop 32) k = le64 (snap s.block) (32 + k) := le64_drop _ 32 k
  have hquad := dec4_snap_drop s.block
  simp only [dec4, hacc, Nat.reduceAdd] at hquad
  exact ⟨snap s.block, exec_exportState s, snap_length s.block, snap_take_buf s.block,
    congrArg Quad.w0 hquad, congrArg Quad.w1 hquad, congrArg Quad.w2 hquad, congrArg Quad.w3 hquad,
    le64_snap_seed s.block, le64_snap_total s.block, snap_getD_npend s.block⟩

theorem getD_take_of_lt (x : Bytes) {i n : Nat} (h : i < n) : (x.take n).getD i 0 = x.getD i 0 := by
  rw [List.getD_eq_getElem?_getD, List.getElem?_take_of_lt h, ← List.getD_eq_getElem?_getD]

/-- Bytes past 80 are not read (R76). -/
theorem unsnap_take (x : Bytes) : unsnap (x.take 81) = unsnap x := by
  have hbuf : snapshotBuf (x.take 81) = snapshotBuf x := by
    apply Vector.ext
    intro i hi
    rw [snapshotBuf_getElem _ i hi, snapshotBuf_getElem _ i hi, getD_take_of_lt x (hi.trans (by decide))]
  have hnpend : (x.take 81).getD 80 0 = x.getD 80 0 := getD_take_of_lt x (by decide)
  simp (disch := decide) only [unsnap, le64_take, hbuf, hnpend]

theorem importStatus_eq_ok {x : Bytes} (hlen : 81 ≤ x.length) (hn : (x.getD 80 0).toNat < 32) :
    importStatus x = .ok := by
  rcases importStatus_cases x with ⟨hshort, -⟩ | ⟨-, hbad, -⟩ | ⟨-, -, hok⟩
  · omega
  · omega
  · exact hok

/-- Settles O25: the elements are `unsnap`'s fields, which the first 81 bytes determine. -/
theorem importRestoresTheSnapshot : Obligations.ImportRestoresTheSnapshot := by
  intro s x hlen hn
  have htake : importStatus (x.take 81) = .ok :=
    importStatus_eq_ok (by rw [List.length_take]; omega) (by rwa [getD_take_of_lt x (by decide)])
  refine ⟨_, exec_importState_of_ok x s (importStatus_eq_ok hlen hn), fun i hi => snapshotBuf_getElem x i hi, rfl, rfl,
    rfl, ?_, rfl, rfl, ?_⟩
  · rw [unsnap_npend, BitVec.toNat_setWidth, Nat.mod_eq_of_lt hn]
  · rw [exec_importState_of_ok _ s htake, unsnap_take]

/-- A whole block into an empty buffer, and one byte more: the block is absorbed, the byte lies over its image. -/
theorem absorbBytes_block_and_byte (b : Block) (x : Bytes) (d : Byte) (hb : b.npend = 0) (hx : x.length = 32) :
    (absorbBytes b (x ++ [d])).acc = absorb1 b.acc x ∧ (absorbBytes b (x ++ [d])).npend = 1
      ∧ (absorbBytes b (x ++ [d])).buf.toList = d :: x.drop 1 := by
  have hzero : b.npend.toNat = 0 := by rw [hb]; rfl
  obtain ⟨hacc, hn, hbuf⟩ := absorbBytes_of_full b x (by omega)
  have hn' : (absorbBytes b x).npend.toNat = 0 := by rw [hn]; rfl
  obtain ⟨hacc', hn1⟩ := absorbByte_of_lt (absorbBytes b x) d (by omega)
  rw [absorbBytes_append, absorbBytes_cons, absorbBytes_nil]
  refine ⟨by rw [hacc', hacc, hzero, List.take_zero, List.nil_append], ?_, ?_⟩
  · apply BitVec.eq_of_toNat_eq
    rw [hn1, hn']
    rfl
  · rw [absorbByte_buf_toList, hn', hbuf, hzero, List.take_zero, List.take_zero, List.nil_append, List.nil_append]

/-- R77's example: one block of ones and one byte over its image. -/
theorem snap_of_example :
    snap (absorbBytes (addTotal (constructed 0) (List.replicate 32 1 ++ [2])) (List.replicate 32 1 ++ [2]))
      = [2] ++ List.replicate 31 1
        ++ List.replicate 8 3 ++ List.replicate 8 2 ++ List.replicate 8 3 ++ List.replicate 8 2
        ++ [0, 0, 0, 0, 0, 0, 0, 0] ++ [0x21, 0, 0, 0, 0, 0, 0, 0] ++ [1] := by
  obtain ⟨hacc, hnpend, hbuf⟩ := absorbBytes_block_and_byte
    (addTotal (constructed 0) (List.replicate 32 1 ++ [2])) (List.replicate 32 1) 2 rfl List.length_replicate
  rw [snap, hacc, hnpend, hbuf, absorbBytes_total, absorbBytes_seed]
  decide

/-- Settles O58: INIT makes the block forget the state, and the rest is the example's own snapshot. -/
theorem snapshotExample : Obligations.SnapshotExample := by
  intro s
  refine ⟨_, (execAll_cons_of_next _ (exec_init 0 s)).trans ((execAll_cons_of_next _ (exec_absorb _ _)).trans
    ((execAll_cons_of_next [] (exec_exportState _)).trans rfl)), ?_⟩
  rw [List.getLast?_concat, snap_of_example]

/-! ## Assembled lines (R71, R72) -/

/-- A line that is no raw opcode stands for commands' own frames. -/
theorem exists_instr_of_mem_frame {line : AsmLine} {f : Descriptor × Bytes} (hraw : ∀ opc, line ≠ .rawWord opc)
    (hf : f ∈ line.frame) : ∃ i, f = frameOf i := by
  cases line with
  | rawWord opc => exact absurd rfl (hraw opc)
  | init seed64 => exact ⟨_, List.mem_singleton.mp hf⟩
  | absorb e => exact ⟨_, List.mem_singleton.mp hf⟩
  | digest => exact ⟨_, List.mem_singleton.mp hf⟩
  | reset => exact ⟨_, List.mem_singleton.mp hf⟩
  | exportState => exact ⟨_, List.mem_singleton.mp hf⟩
  | importState e => exact ⟨_, List.mem_singleton.mp hf⟩
  | oneshot seed32 e => exact ⟨_, List.mem_singleton.mp hf⟩
  | hash256 seed64 e => exact absurd hf List.not_mem_nil
  | hash64 seed32 e => exact absurd hf List.not_mem_nil
  | rehash e => exact absurd hf List.not_mem_nil
  | suspend => exact absurd hf List.not_mem_nil
  | resume e => exact absurd hf List.not_mem_nil

/-- No expansion brings a raw opcode in. -/
theorem not_rawWord_of_mem_expand {line l : AsmLine} (hraw : ∀ opc, line ≠ .rawWord opc) (hl : l ∈ line.expand) :
    ∀ opc, l ≠ .rawWord opc := by
  rintro opc rfl
  cases line with
  | rawWord opc => exact hraw opc rfl
  | _ => simp [AsmLine.expand] at hl

/-- A command's frame is legal, and delivered if LEN can hold its length. -/
theorem frameOf_legal_delivered (i : Instr) (h : i.data.length < 2 ^ 64) :
    (frameOf i).1.legal = true ∧ Delivered (frameOf i) :=
  ⟨legal_descriptor i, (lenWord_toNat i.data (decide_eq_true h)).symm⟩

/-- Settles O56: every frame of the line is some command's own. -/
theorem assembledLinesAreLegal : Obligations.AssembledLinesAreLegal := by
  intro line f hraw hf hlen
  obtain ⟨l, hl, hfl⟩ := List.mem_flatMap.mp hf
  obtain ⟨i, rfl⟩ := exists_instr_of_mem_frame (not_rawWord_of_mem_expand hraw hl) hfl
  exact frameOf_legal_delivered i hlen

/-- Settles O55: both sides list the same frames. -/
theorem pseudoCommandExpansions : Obligations.PseudoCommandExpansions :=
  fun _ _ _ => ⟨rfl, rfl, rfl, rfl, rfl⟩

/-- Settles O57: closed texts, read by evaluation. -/
theorem writtenLinesAssemble : Obligations.WrittenLinesAssemble :=
  ⟨by decide, by decide, by decide, by decide, by decide, by decide⟩

end Sys2Proof.Proofs

namespace Sys2Proof.Proofs

/-! Proofs about the mixing core (spec/40_mixing_core.md R94 to R96, R99, R100): O38 to O41. -/

open Sys2Proof.Laws Sys2Proof.Machine

/-! ## Rotation undone (R95) -/

/-- Turning by an amount and then by what is left of 64 brings every bit back to its place. -/
theorem rotl_rotl_sub (v : Word) (r : Nat) (h0 : 0 < r) (h : r < 64) : rotl (rotl v r) (64 - r) = v := by
  refine BitVec.eq_of_getLsbD_eq fun i hi => ?_
  have hback := (rotlMovesEachBitLeft (rotl v r) (64 - r) (by omega) (by omega)).2 i hi
  have hthere := (rotlMovesEachBitLeft v r h0 h).2 ((i + 64 - (64 - r)) % 64) (Nat.mod_lt _ (by decide))
  have hplace : ((i + 64 - (64 - r)) % 64 + 64 - r) % 64 = i := by omega
  rw [hback, hthere, hplace]

theorem rotr_rotl (v : Word) (r : Nat) (h0 : 0 < r) (h : r < 64) : rotr (rotl v r) r = v :=
  rotl_rotl_sub v r h0 h

theorem rotl_rotr (v : Word) (r : Nat) (h0 : 0 < r) (h : r < 64) : rotl (rotr v r) r = v := by
  have hback := rotl_rotl_sub v (64 - r) (by omega) (by omega)
  rwa [Nat.sub_sub_self h.le] at hback

/-! ## The kinds of step in the round, each undone on both sides (R92, R95) -/

/-- Steps 1, 3, 5 and 7. -/
theorem add_add_sub_sub_right (v a b : Word) : v + a + b - a - b = v := by
  rw [sub_sub, add_assoc, add_sub_cancel_right]

theorem sub_sub_add_add_right (v a b : Word) : v - a - b + a + b = v := by
  rw [sub_sub, add_assoc, sub_add_cancel]

/-- Step 2. -/
theorem rotr_add_rotl_add_sub_sub (v a x : Word) (r : Nat) (h0 : 0 < r) (h : r < 64) :
    rotr (a + rotl v r + x - a - x) r = v := by
  rw [add_comm a, add_add_sub_sub_right, rotr_rotl v r h0 h]

theorem add_rotl_rotr_sub_sub_add (v a x : Word) (r : Nat) (h0 : 0 < r) (h : r < 64) :
    a + rotl (rotr (v - a - x) r) r + x = v := by
  rw [rotl_rotr _ r h0 h, add_comm a, sub_sub_add_add_right]

/-- Step 4. -/
theorem rotr_add_rotl_sub (v a : Word) (r : Nat) (h0 : 0 < r) (h : r < 64) : rotr (a + rotl v r - a) r = v := by
  rw [add_sub_cancel_left, rotr_rotl v r h0 h]

theorem add_rotl_rotr_sub (v a : Word) (r : Nat) (h0 : 0 < r) (h : r < 64) : a + rotl (rotr (v - a) r) r = v := by
  rw [rotl_rotr _ r h0 h, add_sub_cancel]

/-- Steps 6 and 8. -/
theorem rotr_xor_rotl_xor (v a : Word) (r : Nat) (h0 : 0 < r) (h : r < 64) : rotr (a ^^^ rotl v r ^^^ a) r = v := by
  rw [BitVec.xor_comm a, BitVec.xor_assoc, BitVec.xor_self, BitVec.xor_zero, rotr_rotl v r h0 h]

theorem xor_rotl_rotr_xor (v a : Word) (r : Nat) (h0 : 0 < r) (h : r < 64) : a ^^^ rotl (rotr (v ^^^ a) r) r = v := by
  rw [rotl_rotr _ r h0 h, BitVec.xor_comm, BitVec.xor_assoc, BitVec.xor_self, BitVec.xor_zero]

/-! ## The round undone (R95) -/

theorem roundInv_mixRound (s b : Quad) (x : Word) : roundInv (mixRound s b x) b x = s := by
  simp only [roundInv, mixRound, rotr_xor_rotl_xor, rotr_add_rotl_sub, rotr_add_rotl_add_sub_sub,
    add_add_sub_sub_right, Nat.reduceLT]

theorem mixRound_roundInv (s b : Quad) (x : Word) : mixRound (roundInv s b x) b x = s := by
  simp only [roundInv, mixRound, xor_rotl_rotr_xor, add_rotl_rotr_sub, add_rotl_rotr_sub_sub_add,
    sub_sub_add_add_right, Nat.reduceLT]

/-- Settles O38: a map with a two-sided inverse is a bijection. -/
theorem roundIsInvertible : Obligations.RoundIsInvertible := fun b x =>
  ⟨Function.bijective_iff_has_inverse.mpr
      ⟨fun s => roundInv s b x, fun s => roundInv_mixRound s b x, fun s => mixRound_roundInv s b x⟩,
    fun s => ⟨roundInv_mixRound s b x, mixRound_roundInv s b x⟩⟩

/-! ## The round's schedule and its corner cases (R94, R96) -/

/-- Settles O39: each operation of a stage reads what the same step of the round reads, so both are the same terms. -/
theorem stagedRoundIsTheRound : Obligations.StagedRoundIsTheRound := fun _ _ _ => rfl

/-- Settles O40: three closed rounds, run. -/
theorem roundCornerCases : Obligations.RoundCornerCases := ⟨by decide, by decide, by decide⟩

/-! ## The virtual final block (R99, R100) -/

theorem vblock_length (image tail : Bytes) (h : tail.length ≤ image.length) :
    (vblock image tail).length = image.length := by
  rw [vblock, List.length_append, List.length_drop, Nat.add_sub_cancel' h]

theorem vblock_getElem?_of_lt (image tail : Bytes) (i : Nat) (h : i < tail.length) :
    (vblock image tail)[i]? = tail[i]? :=
  List.getElem?_append_left h

theorem vblock_getElem?_of_le (image tail : Bytes) (i : Nat) (h : tail.length ≤ i) :
    (vblock image tail)[i]? = image[i]? := by
  rw [vblock, List.getElem?_append_right h, List.getElem?_drop, Nat.add_sub_cancel' h]

theorem vblock_nil (image : Bytes) : vblock image [] = image := rfl

/-- Settles O41: the bytes below the tail's length are the tail's, the others the image's at the same offset. -/
theorem virtualBlockOverlaysTheTail : Obligations.VirtualBlockOverlaysTheTail := by
  intro image tail himage htail
  have hlen : (vblock image tail).length = 32 := (vblock_length image tail (by omega)).trans himage
  exact ⟨hlen, vblock_getElem?_of_lt image tail, fun i hi _ => vblock_getElem?_of_le image tail i hi,
    vblock_nil image⟩

end Sys2Proof.Proofs

namespace Sys2Proof.Proofs

/-! Proofs about the one-shot engine beside the incremental one (spec/41_oneshot.md R110 to R114): O33 to O36. -/

open Sys2Proof.Laws Sys2Proof.Machine

/-! ## Strings cut into 32-byte blocks and a shorter rest -/

theorem length_flatten_of_blocks (blocks : List Bytes) (h : ∀ b ∈ blocks, b.length = 32) :
    blocks.flatten.length = 32 * blocks.length := by
  rw [List.length_flatten, List.map_eq_replicate_iff.mpr h, List.sum_replicate_nat, Nat.mul_comm]

theorem exists_cut (data : Bytes) : ∃ (blocks : List Bytes) (tail : Bytes),
    (∀ b ∈ blocks, b.length = 32) ∧ tail.length < 32 ∧ data = blocks.flatten ++ tail := by
  induction hn : data.length / 32 generalizing data with
  | zero => exact ⟨[], data, by simp, by omega, rfl⟩
  | succ n ih =>
    obtain ⟨blocks, tail, hblocks, htail, hcut⟩ := ih (data.drop 32) (by rw [List.length_drop]; omega)
    have hfirst : (data.take 32).length = 32 := by rw [List.length_take]; omega
    refine ⟨data.take 32 :: blocks, tail, List.forall_mem_cons.mpr ⟨hfirst, hblocks⟩, htail, ?_⟩
    rw [List.flatten_cons, List.append_assoc, ← hcut, List.take_append_drop]

/-! ## What both engines finalize -/

/-- R110 in terms of the cut: the loop takes the blocks and leaves the rest. -/
theorem oneshotHash_of_cut (seed32 : BitVec 32) {data : Bytes} {blocks : List Bytes} {tail : Bytes}
    (hblocks : ∀ b ∈ blocks, b.length = 32) (htail : tail.length < 32) (hcut : data = blocks.flatten ++ tail) :
    oneshotHash seed32 data =
      wordSum (fin6 (blocks.foldl absorb1 ⟨0, 0, 0, lenWord data⟩)
        (dec4 (vblock (blocks.getLast?.getD (zeros 32)) tail)) (oneshotScalar seed32)) := by
  have hcount : data.length / 32 = blocks.length := by
    rw [hcut, List.length_append, length_flatten_of_blocks blocks hblocks]
    omega
  have hloop := oneshotBlocks_flatten blocks ⟨0, 0, 0, lenWord data⟩ (zeros 32) tail hblocks
  rw [← hcut] at hloop
  simp only [oneshotHash, Config.blockBytes, hcount, hloop]

theorem take_npend_length (b : Block) : (b.buf.toList.take b.npend.toNat).length = b.npend.toNat :=
  List.length_take_of_le (by rw [buf_toList_length]; exact (npend_lt b).le)

/-- R124 to R126 in terms of the cut of the pending tail and the data: the blocks are absorbed in turn, the rest is the
new tail over the image of the last of them. -/
theorem absorbBytes_of_cut (b : Block) {data : Bytes} {blocks : List Bytes} {tail : Bytes}
    (hblocks : ∀ x ∈ blocks, x.length = 32) (htail : tail.length < 32)
    (hcut : b.buf.toList.take b.npend.toNat ++ data = blocks.flatten ++ tail) :
    (absorbBytes b data).acc = blocks.foldl absorb1 b.acc
    ∧ (absorbBytes b data).npend.toNat = tail.length
    ∧ (absorbBytes b data).buf.toList = vblock (blocks.getLast?.getD b.buf.toList) tail := by
  induction blocks generalizing b data with
  | nil =>
    rw [List.flatten_nil, List.nil_append] at hcut
    have hlen : b.npend.toNat + data.length = tail.length := by
      rw [← hcut, List.length_append, take_npend_length]
    obtain ⟨hacc, hn, hbuf⟩ := absorbBytes_of_lt b data (by omega)
    exact ⟨hacc, hn.trans hlen, by rw [hbuf, hcut, hlen]; rfl⟩
  | cons x more ih =>
    obtain ⟨hx, hmore⟩ := List.forall_mem_cons.mp hblocks
    rw [List.flatten_cons, List.append_assoc] at hcut
    have hlen := congrArg List.length hcut
    rw [List.length_append, take_npend_length, List.length_append, hx] at hlen
    have hlt := npend_lt b
    obtain ⟨fill, later, rfl, hfill⟩ : ∃ fill later, data = fill ++ later ∧ b.npend.toNat + fill.length = 32 :=
      ⟨data.take (32 - b.npend.toNat), data.drop (32 - b.npend.toNat), (List.take_append_drop _ _).symm, by
        rw [List.length_take]; omega⟩
    rw [← List.append_assoc] at hcut
    obtain ⟨hblock, hlater⟩ := List.append_inj hcut (by rw [List.length_append, take_npend_length, hfill, hx])
    obtain ⟨hacc, hn, hbuf⟩ := absorbBytes_of_full b fill hfill
    rw [hblock] at hacc hbuf
    have hzero : (absorbBytes b fill).npend.toNat = 0 := by rw [hn]; rfl
    have hnext : (absorbBytes b fill).buf.toList.take (absorbBytes b fill).npend.toNat ++ later
        = more.flatten ++ tail := by rw [hzero, List.take_zero, List.nil_append, hlater]
    obtain ⟨hacc', hn', hbuf'⟩ := ih (absorbBytes b fill) hmore hnext
    rw [absorbBytes_append, List.foldl_cons, ← hacc, List.getLast?_cons, Option.getD_some, ← hbuf]
    exact ⟨hacc', hn', hbuf'⟩

/-- The block that `INIT seed ; ABSORB x` leaves, whatever stood there before (R121, R122). -/
def hashedBlock (seed : Word) (x : Bytes) : Block := absorbBytes (addTotal (constructed seed) x) x

/-- The three commands that hash a string with the incremental engine, from any state. -/
theorem execAll_init_absorb_digest (s : State) (seed : Word) (x : Bytes) :
    execAll [.init seed, .absorb x, .digest] s = .next
      { s with
        block := hashedBlock seed x
        tx := s.tx ++ [⟨.ok, []⟩, ⟨.ok, enc64 (lenWord x)⟩, ⟨.ok, enc4 (digestWords (hashedBlock seed x))⟩] } := by
  rw [execAll_cons_of_next _ (exec_init seed s), execAll_cons_of_next _ (exec_absorb x _),
    execAll_cons_of_next _ (exec_digest _), execAll, List.append_assoc, List.append_assoc]
  rfl

/-- R130 in terms of the cut: DIGEST finalizes what ONESHOT does, with the seed where that has LEN and the length where
that has its seed. -/
theorem digestWords_of_cut (seed : Word) {x : Bytes} {blocks : List Bytes} {tail : Bytes}
    (hblocks : ∀ b ∈ blocks, b.length = 32) (htail : tail.length < 32) (hcut : x = blocks.flatten ++ tail) :
    digestWords (hashedBlock seed x) =
      fin6 (blocks.foldl absorb1 ⟨0, 0, 0, seed⟩) (dec4 (vblock (blocks.getLast?.getD (zeros 32)) tail))
        (lenWord x) := by
  obtain ⟨hacc, -, hbuf⟩ := absorbBytes_of_cut (addTotal (constructed seed) x) hblocks htail hcut
  have htotal : (hashedBlock seed x).total = lenWord x := by simp [hashedBlock]
  rw [digestWords, htotal, hashedBlock, hacc, hbuf]
  rfl

/-! ## ONESHOT (R110 to R114) -/

/-- Settles O33: the length of the cut data is its LEN word, and zero-extending the seed keeps its value. -/
theorem oneshotHashesBlocksAndRest : Obligations.OneshotHashesBlocksAndRest := by
  intro s seed32 blocks tail hblocks htail
  rw [exec_oneshot, oneshotHash_of_cut seed32 hblocks htail rfl, lenWord, List.length_append,
    length_flatten_of_blocks blocks hblocks, oneshotScalar, BitVec.ofNat_toNat]

/-- A length below 2^32 is the same word as LEN and as ONESHOT's zero-extended seed (R69, R114). -/
theorem oneshotScalar_length (x : Bytes) (h : x.length < 2 ^ 32) :
    oneshotScalar (BitVec.ofNat 32 x.length) = lenWord x := by
  apply BitVec.eq_of_toNat_eq
  simp only [oneshotScalar, lenWord, BitVec.toNat_setWidth, BitVec.toNat_ofNat]
  omega

/-- R114's relation: with the length as the seed both engines finalize the same words with the same scalar. -/
theorem oneshotHash_length (x : Bytes) (h : x.length < 2 ^ 32) :
    oneshotHash (BitVec.ofNat 32 x.length) x = wordSum (digestWords (hashedBlock (lenWord x) x)) := by
  obtain ⟨blocks, tail, hblocks, htail, hcut⟩ := exists_cut x
  rw [oneshotHash_of_cut _ hblocks htail hcut, digestWords_of_cut _ hblocks htail hcut, oneshotScalar_length x h]

/-- Settles O35: the digest's words are the ones that ONESHOT sums. -/
theorem oneshotIsTheSumOfTheDigest : Obligations.OneshotIsTheSumOfTheDigest := by
  intro s x hx
  refine ⟨_, _, execAll_init_absorb_digest s (lenWord x) x, rfl, enc4_length _, ?_⟩
  rw [exec_oneshot, oneshotHash_length x hx, dec4_enc4]

/-- Settles O34: the answer is made of the operands alone, and the block a DIGEST then reads is the one before. -/
theorem oneshotDoesNotTouchTheEngine : Obligations.OneshotDoesNotTouchTheEngine := by
  intro s other seed32 data
  refine ⟨⟨.ok, enc64 (oneshotHash seed32 data)⟩, ⟨.ok, enc4 (digestWords s.block)⟩, exec_oneshot seed32 data s,
    exec_oneshot seed32 data other, exec_digest s, ?_⟩
  rw [execAll_cons_of_next _ (exec_oneshot seed32 data s), execAll_cons_of_next _ (exec_digest _), execAll,
    List.append_assoc]
  rfl

/-! ## PH's literal vectors -/

/-- PH's digest of 39 zero bytes under seed 39: one block and a rest of seven bytes. -/
theorem digestWords_zeros_39 :
    digestWords (hashedBlock 39 (zeros 39))
      = ⟨0x6c3437008aba5401, 0x4bd7da9f13de6a32, 0x8c262abc279916d0, 0xb0bf3c5cf2ace3ff⟩ := by
  have hcut : zeros 39 = [zeros 32].flatten ++ zeros 7 := rfl
  rw [digestWords_of_cut 39 (by decide) (by decide) hcut]
  decide

/-- Settles O36: the digest is run, and ONESHOT's answer is the sum of its words, the seed being the length (R114). -/
theorem sourceVectorsHold : Obligations.SourceVectorsHold := by
  intro s
  refine ⟨_, ?_, execAll_init_absorb_digest s 39 (zeros 39), ?_⟩
  · have hsum := oneshotHash_length (zeros 39) (by decide)
    have hseed : lenWord (zeros 39) = 39 := by decide
    rw [hseed, digestWords_zeros_39] at hsum
    have hbytes : enc64 (oneshotHash 39 (zeros 39)) = [0x02, 0xb9, 0xde, 0xb8, 0xb8, 0x78, 0xf1, 0xf4] :=
      (congrArg enc64 hsum).trans (by decide)
    rw [exec_oneshot, hbytes]
  · rw [digestWords_zeros_39]
    rfl

end Sys2Proof.Proofs

namespace Sys2Proof.Proofs

/-! Proofs about the incremental engine's commands (spec/42_incremental.md): O15 to O23, O26 to O28. -/

open Sys2Proof.Laws Sys2Proof.Machine

/-! ## Sequences of commands (R48) -/

theorem execAll_append_of_next {cmds : List Instr} {s t : State} (more : List Instr)
    (h : execAll cmds s = .next t) : execAll (cmds ++ more) s = execAll more t := by
  induction cmds generalizing s with
  | nil =>
    cases h
    rfl
  | cons i cmds ih =>
    obtain ⟨f, r, hexec⟩ := exec_reads_block_only i
    rw [execAll_cons_of_next cmds (hexec s)] at h
    rw [List.cons_append, execAll_cons_of_next _ (hexec s)]
    exact ih h

/-- Every sequence of commands completes. Its new block and its answers come from the old block alone. -/
theorem execAll_reads_block_only (cmds : List Instr) :
    ∃ (f : Block → Block) (r : Block → List Response),
      ∀ s, execAll cmds s = .next { s with block := f s.block, tx := s.tx ++ r s.block } := by
  induction cmds with
  | nil => exact ⟨id, fun _ => [], fun s => by simp only [execAll, id_eq, List.append_nil]⟩
  | cons i more ih =>
    obtain ⟨f, r, hexec⟩ := exec_reads_block_only i
    obtain ⟨g, rs, hmore⟩ := ih
    refine ⟨fun b => g (f b), fun b => r b :: rs (f b), fun s => ?_⟩
    rw [execAll_cons_of_next more (hexec s), hmore, List.append_assoc, List.singleton_append]

/-- A command that writes no state only answers (R22). -/
theorem exec_of_writesNoState {i : Instr} (h : WritesNoState i) (s : State) :
    ∃ r, exec i s = .next { s with tx := s.tx ++ [r] } := by
  obtain ⟨f, r, hexec⟩ := exec_reads_block_only i
  obtain ⟨hkeeps, -, -⟩ := writtenByColumn i s _ (hexec s)
  have hblock : f s.block = s.block := hkeeps h
  exact ⟨r s.block, by rw [hexec s, hblock]⟩

theorem execAll_of_writesNoState {cmds : List Instr} (h : ∀ i ∈ cmds, WritesNoState i) (s : State) :
    ∃ answers, execAll cmds s = .next { s with tx := s.tx ++ answers } := by
  induction cmds generalizing s with
  | nil => exact ⟨[], by rw [execAll, List.append_nil]⟩
  | cons i more ih =>
    obtain ⟨hi, hmore⟩ := List.forall_mem_cons.mp h
    obtain ⟨r, hr⟩ := exec_of_writesNoState hi s
    obtain ⟨answers, hanswers⟩ := ih hmore { s with tx := s.tx ++ [r] }
    exact ⟨r :: answers, by rw [execAll_cons_of_next more hr, hanswers, List.append_assoc, List.singleton_append]⟩

/-! ## Snapshots (R73 to R76) -/

theorem importStatus_snap (b : Block) : importStatus (snap b) = .ok :=
  importStatus_eq_ok (snap_length b).ge (by rw [snap_getD_npend]; exact npend_lt b)

/-- The block that a block's own snapshot decodes to is that block (R154). -/
theorem unsnap_snap (b : Block) : unsnap (snap b) = b := by
  have hbuf : snapshotBuf (snap b) = b.buf := by
    apply Vector.toList_inj.mp
    rw [snapshotBuf_toList _ (by rw [snap_length]; decide), snap_take_buf]
  have hacc := dec4_snap_drop b
  simp only [dec4, le64_drop, Nat.reduceAdd] at hacc
  have hnpend : ((snap b).getD 80 0).setWidth 5 = b.npend := by
    apply BitVec.eq_of_toNat_eq
    rw [BitVec.toNat_setWidth, snap_getD_npend, Nat.mod_eq_of_lt (npend_lt b)]
  rw [unsnap, hbuf, hacc, hnpend, le64_snap_seed, le64_snap_total]

/-! ## EXPORT and IMPORT (R140 to R154) -/

/-- Settles O28: IMPORT undoes EXPORT, and whatever comes later reads the restored block alone. -/
theorem exportThenImportIsExact : Obligations.ExportThenImportIsExact := by
  intro s other later
  obtain ⟨f, answers, hlater⟩ := execAll_reads_block_only later
  have himport := exec_importState_of_ok (snap s.block) other (importStatus_snap s.block)
  rw [unsnap_snap] at himport
  exact ⟨snap s.block, _, exec_exportState s, snap_length s.block, himport, rfl,
    answers s.block, _, _, hlater s, hlater _, rfl, rfl, rfl⟩

/-- Settles O26, a clause for each of the three outcomes of the checks. -/
theorem importChecksLengthThenCorruption : Obligations.ImportChecksLengthThenCorruption := by
  intro s x
  have hraises := exec_importState_of_ne_ok x s
  rcases importStatus_cases x with ⟨hshort, hc⟩ | ⟨hlen, hbad, hc⟩ | ⟨hlen, hgood, hc⟩
  · rw [hc] at hraises
    exact ⟨fun _ => hraises (by decide), fun h => by omega, fun h => by omega⟩
  · rw [hc] at hraises
    exact ⟨fun h => by omega, fun _ _ => hraises (by decide), fun _ h => by omega⟩
  · exact ⟨fun h => by omega, fun _ h => by omega, fun _ _ => ⟨_, exec_importState_of_ok x s hc, rfl⟩⟩

/-- Settles O27: IMPORT puts the snapshot's seed into SEED, from which RESET constructs. -/
theorem resetAfterImportUsesTheImportedSeed : Obligations.ResetAfterImportUsesTheImportedSeed := by
  intro s x hlen hn
  have himport := exec_importState_of_ok x s (importStatus_eq_ok hlen hn)
  exact ⟨_, (execAll_cons_of_next [.reset] himport).trans (execAll_cons_of_next [] (exec_reset _)), rfl⟩

/-! ## INIT and RESET (R121, R135, R136) -/

/-- Settles O15: the constructed block, written out. -/
theorem initConstructsTheEngine : Obligations.InitConstructsTheEngine := fun s seed => exec_init seed s

/-- Settles O16: the constructed block of the stored seed, written out. -/
theorem resetRestoresTheConstructedState : Obligations.ResetRestoresTheConstructedState := exec_reset

/-- RESET is INIT with the stored seed (R135, R136). -/
theorem exec_reset_eq_init (s : State) : exec .reset s = exec (.init s.block.seed) s :=
  (exec_reset s).trans (exec_init s.block.seed s).symm

theorem execAll_reset_eq_init (more : List Instr) (s : State) :
    execAll (.reset :: more) s = execAll (.init s.block.seed :: more) s := by
  simp only [execAll, exec_reset_eq_init]

/-- Settles O17: the first commands agree, so the sequences do. -/
theorem resetEqualsInitWithTheStoredSeed : Obligations.ResetEqualsInitWithTheStoredSeed := by
  intro s x
  have hinit := execAll_init_absorb_digest s s.block.seed x
  exact ⟨_, (execAll_reset_eq_init _ s).trans hinit, hinit⟩

/-! ## ABSORB (R122 to R127) -/

/-- Settles O18: the cut says what the bytes do, and counting them before changes nothing but TOTAL. -/
theorem absorbTakesWholeBlocksAndKeepsTheRest : Obligations.AbsorbTakesWholeBlocksAndKeepsTheRest := by
  intro s data blocks tail hblocks htail hcut
  obtain ⟨hacc, hnpend, hbuf⟩ := absorbBytes_of_cut (addTotal s.block data) hblocks htail hcut
  exact ⟨_, exec_absorb data s, hacc, hbuf, hnpend, absorbBytes_total _ data, absorbBytes_seed _ data, rfl, rfl⟩

/-- Settles O20: the loop over both strings is the loop over their concatenation, and so is the count. -/
theorem chunkingDoesNotMatter : Obligations.ChunkingDoesNotMatter := by
  intro s a b
  refine ⟨_, _, (execAll_cons_of_next [.absorb b] (exec_absorb a s)).trans (execAll_cons_of_next [] (exec_absorb b _)),
    exec_absorb (a ++ b) s, absorb_twice s.block a b, rfl, ?_⟩
  exact List.append_assoc s.tx [_] [_]

/-- No bytes add nothing to TOTAL. -/
theorem addTotal_nil (b : Block) : addTotal b [] = b := by
  rw [addTotal, lenWord, List.length_nil, BitVec.add_zero]

/-- Settles O19: no byte for the loop, a count of zero. -/
theorem emptyAbsorbWritesNothing : Obligations.EmptyAbsorbWritesNothing := by
  intro s
  have hcount : enc64 (lenWord []) = zeros 8 := by decide
  rw [exec_absorb, absorbBytes_nil, addTotal_nil, hcount]

/-! ## DIGEST (R130 to R132) -/

/-- Settles O21: the six rounds of `Fin6` (R98), written out. -/
theorem digestAnswersSixRounds : Obligations.DigestAnswersSixRounds := exec_digest

/-- Settles O22: DIGEST answers from the block alone, which no command in between and no DIGEST writes. -/
theorem digestDoesNotPerturb : Obligations.DigestDoesNotPerturb := by
  constructor
  · intro s between hbetween
    obtain ⟨answers, hanswers⟩ :=
      execAll_of_writesNoState hbetween { s with tx := s.tx ++ [⟨.ok, enc4 (digestWords s.block)⟩] }
    have hfront := (execAll_cons_of_next between (exec_digest s)).trans hanswers
    exact ⟨⟨.ok, enc4 (digestWords s.block)⟩, answers,
      (execAll_append_of_next [.digest] hfront).trans (execAll_cons_of_next [] (exec_digest _))⟩
  · intro s x
    exact ⟨_, _, (execAll_cons_of_next [.absorb x] (exec_digest s)).trans (execAll_cons_of_next [] (exec_absorb x _)),
      exec_absorb x s, rfl⟩

/-- DIGEST right after INIT, from any state. -/
theorem execAll_init_digest (s : State) (seed : Word) :
    execAll [.init seed, .digest] s = .next
      { s with
        block := constructed seed
        tx := s.tx ++ [⟨.ok, []⟩, ⟨.ok, enc4 (digestWords (constructed seed))⟩] } := by
  rw [execAll_cons_of_next _ (exec_init seed s), execAll_cons_of_next _ (exec_digest _), execAll, List.append_assoc]
  rfl

/-- Settles O23: the digests of the two constructed blocks are run. -/
theorem freshEngineDigests : Obligations.FreshEngineDigests := by
  intro s
  have hzero : enc4 (digestWords (constructed 0)) = zeros 32 := by decide
  have hthirtyNine : enc4 (digestWords (constructed 39)) =
      [0xc9, 0x2d, 0x98, 0x0d, 0x27, 0x81, 0xfc, 0x16, 0x69, 0xbf, 0xa0, 0x14, 0x56, 0x9f, 0x02, 0x45,
        0x37, 0x43, 0x47, 0x73, 0x6a, 0xd6, 0xc8, 0x13, 0x48, 0x6e, 0xc3, 0xaf, 0x91, 0xea, 0xf3, 0x79] := by decide
  exact ⟨_, _, execAll_init_digest s 0, by rw [hzero], execAll_init_digest s 39, by rw [hthirtyNine]⟩

end Sys2Proof.Proofs

namespace Sys2Proof.Proofs

/-! Proofs about errors and what stops the machine (spec/60_exceptions.md R160 to R167, R176): O7, O8, O9, O11, O53,
O54. -/

open Sys2Proof.Laws Sys2Proof.Machine

/-! ## What a frame gives, legal or not (R62, R162, R163) -/

theorem serve_of_decodeFrame {d : Descriptor} {data : Bytes} {i : Instr} (h : decodeFrame d data = .ok i) (s : State) :
    serve exec d data s = exec i s := by
  simp only [serve, h]

theorem serve_of_not_legal {d : Descriptor} (data : Bytes) (s : State) (h : d.legal = false) :
    serve exec d data s = .next { s with tx := s.tx ++ [⟨.illegalCommand, []⟩] } := by
  simp only [serve, decodeFrame_of_not_legal d data h, raise_eq]

/-- A frame taken from the port gives a next state with one answer more, and leaves what stands behind it. -/
theorem serve_completes (d : Descriptor) (data : Bytes) (s : State) :
    ∃ b r, serve exec d data s = .next { s with block := b, tx := s.tx ++ [r] } := by
  rcases serve_cases d data s with ⟨i, -, hserve⟩ | ⟨e, -, hserve⟩
  · obtain ⟨f, r, hexec⟩ := exec_reads_block_only i
    exact ⟨_, _, hserve.trans (hexec s)⟩
  · exact ⟨_, _, hserve⟩

/-- An illegal frame and a failing IMPORT write no state element: they give the same error answer in every state. -/
theorem serve_of_failing {d : Descriptor} {data : Bytes}
    (h : d.legal = false ∨ ∃ x, decodeFrame d data = .ok (.importState x) ∧ importStatus x ≠ .ok) :
    ∃ e : Status, e ≠ .ok ∧ ∀ s, serve exec d data s = .next { s with tx := s.tx ++ [⟨e, []⟩] } := by
  rcases h with hillegal | ⟨x, hdecode, hstatus⟩
  · exact ⟨.illegalCommand, by decide, fun s => serve_of_not_legal data s hillegal⟩
  · exact ⟨importStatus x, hstatus, fun s =>
      (serve_of_decodeFrame hdecode s).trans (exec_importState_of_ne_ok x s hstatus)⟩

/-- A frame delivered in full is served, legal or not. -/
theorem step_of_frame {s : State} {d : Descriptor} {data : Bytes} {rest : List PortEvent} (hd : Delivered (d, data))
    (hpulse : NoPulseInFlight rest) (hrx : s.rx = portBytes (encodeFrame d data) ++ rest) :
    step s = serve exec d data { s with rx := rest } := by
  have hfetch : fetch s.rx = .command d data rest := by
    rw [hrx]
    exact fetch_frame d data rest hd hpulse
  simp only [step, hfetch]

/-! ## The errors (R161 to R164) -/

/-- Settles O7: an illegal frame is served by raising the error; a failing IMPORT raises its status. -/
theorem errorsWriteNoStateElement : Obligations.ErrorsWriteNoStateElement :=
  ⟨fun _ _ data _ hillegal hd hpulse hrx => (step_of_frame hd hpulse hrx).trans (serve_of_not_legal data _ hillegal),
    fun s data h => exec_importState_of_ne_ok data s h⟩

/-- Settles O8. -/
theorem statusCodesAreDistinct : Obligations.StatusCodesAreDistinct :=
  ⟨rfl, rfl, rfl, rfl, fun _ _ h => code_injective h⟩

/-- IMPORT's row allows no ARG (R66). -/
theorem import_not_legal_of_arg {arg : Word} (len : Word) (h : arg ≠ 0) : Descriptor.legal ⟨6, arg, len⟩ = false := by
  rw [← Bool.not_eq_true, legal_iff_rows]
  have harg : ¬ arg = 0#64 := h
  simp [harg]

/-- Settles O9: a non-zero ARG keeps the frame from decoding; with ARG zero it is an IMPORT, whose checks run in
order. -/
theorem illegalWinsOverImportErrors : Obligations.IllegalWinsOverImportErrors := by
  intro s arg data
  obtain ⟨hshort, hcorrupt, -⟩ := importChecksLengthThenCorruption s data
  have hserve := serve_of_decodeFrame (decodeFrame_importState (lenWord data) data) s
  exact ⟨fun harg => serve_of_not_legal data s (import_not_legal_of_arg _ harg),
    fun hlen => hserve.trans (hshort hlen), fun hlen hbad => hserve.trans (hcorrupt hlen hbad)⟩

/-! ## What stops the machine (R160, R186) -/

/-- The port waits exactly where bytes stand on it alone and are too few for their command. -/
theorem fetch_waiting_iff (rx : List PortEvent) :
    (∃ reason, fetch rx = .waiting reason) ↔
      afterBytes rx = [] ∧ leadingBytes rx ≠ []
        ∧ ((leadingBytes rx).length < 24
            ∨ (leadingBytes rx).length < 24 + (headerOf (leadingBytes rx)).len.toNat) := by
  rcases fetch_cases rx with
    ⟨rfl, hf⟩ | ⟨bytes, reason, rfl, hne, hf, hshort⟩ | ⟨bytes, inFlight, rest, rfl, hf⟩ |
    ⟨d, data, rest, hlen, rfl, -, hf⟩
  · simp [hf, leadingBytes]
  · have hlead := leadingBytes_portBytes bytes []
    have hafter := afterBytes_portBytes bytes []
    simp only [List.append_nil, leadingBytes, afterBytes] at hlead hafter
    rw [hlead, hafter]
    exact ⟨fun _ => ⟨rfl, hne, hshort⟩, fun _ => ⟨reason, hf⟩⟩
  · simp [hf, afterBytes_portBytes, afterBytes]
  · have hwhole := encodeFrame_length d data
    simp only [hf, leadingBytes_portBytes, headerOf_encodeFrame, List.length_append, reduceCtorEq, exists_false,
      false_iff]
    omega

/-- A step goes on or waits for bytes; it is never refused. -/
theorem step_outcomes (s : State) :
    (Runs s ∧ ∀ reason, fetch s.rx ≠ .waiting reason)
      ∨ ∃ reason, fetch s.rx = .waiting reason ∧ step s = .fault reason := by
  cases hf : fetch s.rx with
  | idle => exact .inl ⟨⟨s, by simp only [step, hf]⟩, by simp⟩
  | waiting reason => exact .inr ⟨reason, rfl, by simp only [step, hf]⟩
  | resetPulse rest => exact .inl ⟨⟨hardwareReset s rest, by simp only [step, hf]⟩, by simp⟩
  | command d data rest =>
    obtain ⟨b, r, hserve⟩ := serve_completes d data { s with rx := rest }
    have hstep : step s = serve exec d data { s with rx := rest } := by simp only [step, hf]
    exact .inl ⟨⟨_, hstep.trans hserve⟩, by simp⟩

/-- Settles O11: the one outcome that is no next state is the fault of a port that waits. -/
theorem onlyShortDeliveryStopsTheMachine : Obligations.OnlyShortDeliveryStopsTheMachine := by
  intro s
  rw [← fetch_waiting_iff]
  rcases step_outcomes s with ⟨⟨t, hstep⟩, hnot⟩ | ⟨reason, hwait, hstep⟩
  · exact ⟨⟨fun _ ⟨reason, hwait⟩ => hnot reason hwait, fun _ => ⟨t, hstep⟩⟩, by simp [hstep]⟩
  · exact ⟨⟨fun ⟨t, hnext⟩ => by simp [hstep] at hnext, fun h => absurd ⟨reason, hwait⟩ h⟩, by simp [hstep]⟩

/-! ## Streams with errors in them (R167, R176) -/

theorem step_of_rx_nil {s : State} (h : s.rx = []) : step s = .next s := by
  have hfetch : fetch s.rx = .idle := by rw [h]; rfl
  simp only [step, hfetch]

/-- Settles O53, by induction on the frames: each step serves the first frame, with one answer, and leaves the others'
bytes. -/
theorem everyDeliveredCommandTerminates : Obligations.EveryDeliveredCommandTerminates := by
  intro s frames hdelivered hrx
  induction frames generalizing s with
  | nil => exact ⟨s, rfl, hrx, rfl, step_of_rx_nil hrx⟩
  | cons f more ih =>
    obtain ⟨hf, hmore⟩ := List.forall_mem_cons.mp hdelivered
    rw [streamOf, List.flatMap_cons, portBytes_append] at hrx
    obtain ⟨b, r, hserve⟩ := serve_completes f.1 f.2 { s with rx := portBytes (streamOf more) }
    have hstep := (step_of_frame hf (noPulseInFlight_portBytes _) hrx).trans hserve
    obtain ⟨t, hrun, hempty, hanswers, hidle⟩ := ih
      { s with block := b, rx := portBytes (streamOf more), tx := s.tx ++ [r] } hmore rfl
    refine ⟨t, (run_succ_of_next _ hstep).trans hrun, hempty, ?_, hidle⟩
    simp only [List.length_append, List.length_singleton] at hanswers
    rw [hanswers, List.length_cons]
    omega

/-- Bytes in front of the port's contents put no reset pulse there. -/
theorem noPulseInFlight_portBytes_append (x : Bytes) {rest : List PortEvent} (h : NoPulseInFlight rest) :
    NoPulseInFlight (portBytes x ++ rest) := by
  cases x with
  | nil => exact h
  | cons b x => simp [NoPulseInFlight, portBytes]

/-- Settles O54: the first step answers the error and takes the failing frame off the port, the second runs the command
behind it. -/
theorem errorsAreRecoverable : Obligations.ErrorsAreRecoverable := by
  intro s d data i rest hfails hd hwf hpulse hrx
  obtain ⟨e, he, hserve⟩ := serve_of_failing hfails
  obtain ⟨f, r, hexec⟩ := exec_reads_block_only i
  rw [portBytes_append, List.append_assoc] at hrx
  have hfirst := (step_of_frame hd (noPulseInFlight_portBytes_append _ hpulse) hrx).trans (hserve _)
  have hsecond := stepRunsTheDecodedCommand
    { s with rx := portBytes (encode i) ++ rest, tx := s.tx ++ [⟨e, []⟩] } i rest hwf hpulse rfl
  have hrest := run_succ_of_next 0 (hsecond.trans (hexec _))
  exact ⟨e, he, (run_succ_of_next 1 hfirst).trans (hrest.trans (hexec _).symm)⟩

end Sys2Proof.Proofs

namespace Sys2Proof.Proofs

/-! Proofs about short delivery, the hardware reset and the power-on state (spec/70_reset_and_hazards.md R180 to R182,
R186): O10, O12, O13, O14, O60. -/

open Sys2Proof.Laws Sys2Proof.Machine

/-! ## Bytes too few for their command, and a pulse at the front of the port (R181, R186) -/

/-- R63: no LEN is read from a header that has not arrived, whatever its bytes would say. -/
theorem splitFrame_of_short_header {bytes : Bytes} (h : bytes.length < 24) :
    splitFrame bytes = .error .incompleteHeader := by
  rcases splitFrame_cases bytes with ⟨-, hsplit⟩ | ⟨hheader, -, -⟩ | ⟨-, -, -, hwhole, -, -, -⟩
  · exact hsplit
  · omega
  · omega

theorem splitFrame_of_short_data {bytes : Bytes} (hheader : 24 ≤ bytes.length)
    (h : bytes.length < 24 + (headerOf bytes).len.toNat) : splitFrame bytes = .error .incompleteData := by
  rcases splitFrame_cases bytes with ⟨hshort, -⟩ | ⟨-, -, hsplit⟩ | ⟨-, -, -, hwhole, -, -, -⟩
  · omega
  · exact hsplit
  · omega

theorem exists_splitFrame_error {bytes : Bytes}
    (h : bytes.length < 24 ∨ bytes.length < 24 + (headerOf bytes).len.toNat) : ∃ e, splitFrame bytes = .error e := by
  by_cases hheader : bytes.length < 24
  · exact ⟨_, splitFrame_of_short_header hheader⟩
  · exact ⟨_, splitFrame_of_short_data (by omega) (h.resolve_left hheader)⟩

/-- Bytes that split into no frame, with nothing behind them, are waited on. -/
theorem fetch_of_splitFrame_error {bytes : Bytes} {e : DecodeError} (hne : bytes ≠ [])
    (h : splitFrame bytes = .error e) : fetch (portBytes bytes) = .waiting (waitFault e) := by
  have hlead := leadingBytes_portBytes bytes []
  have hafter := afterBytes_portBytes bytes []
  simp only [List.append_nil, leadingBytes, afterBytes] at hlead hafter
  simp only [fetch, hlead, hafter, h, if_neg hne]

/-- Any pulse behind bytes that split into no frame is the next thing the port serves. -/
theorem fetch_pulse_of_splitFrame_error {bytes : Bytes} {e : DecodeError} (inFlight : Bool) (rest : List PortEvent)
    (h : splitFrame bytes = .error e) : fetch (portBytes bytes ++ .resetPulse inFlight :: rest) = .resetPulse rest := by
  simp only [fetch, leadingBytes_portBytes, afterBytes_portBytes, leadingBytes, afterBytes, List.append_nil, h]

/-- A pulse in flight behind a whole frame is served in the frame's place (log 5). -/
theorem fetch_pulse_in_flight {d : Descriptor} {data : Bytes} (rest : List PortEvent) (h : Delivered (d, data)) :
    fetch (portBytes (encodeFrame d data) ++ .resetPulse true :: rest) = .resetPulse rest := by
  have hsplit := splitFrame_encodeFrame d data [] h
  rw [List.append_nil] at hsplit
  simp only [fetch, leadingBytes_portBytes, afterBytes_portBytes, leadingBytes, afterBytes, List.append_nil, hsplit]

theorem step_of_fetch_waiting {s : State} {reason : Fault} (h : fetch s.rx = .waiting reason) :
    step s = .fault reason := by
  simp only [step, h]

theorem step_of_fetch_resetPulse {s : State} {rest : List PortEvent} (h : fetch s.rx = .resetPulse rest) :
    step s = .next (hardwareReset s rest) := by
  simp only [step, h]

/-- Settles O10: the header's error comes first, and each error is waited on with its own fault. -/
theorem shortDeliveryIsStuck : Obligations.ShortDeliveryIsStuck := by
  intro s bytes hrx
  have stuck : ∀ e, bytes ≠ [] → splitFrame bytes = .error e → step s = .fault (waitFault e) := fun e hne hsplit =>
    step_of_fetch_waiting (hrx ▸ fetch_of_splitFrame_error hne hsplit)
  refine ⟨?empty, fun hne hheader => stuck _ hne (splitFrame_of_short_header hheader), fun hheader hdata => ?data⟩
  case empty =>
    rintro rfl
    exact step_of_rx_nil hrx
  case data =>
    have hne : bytes ≠ [] := List.ne_nil_of_length_pos (by omega)
    exact stuck _ hne (splitFrame_of_short_data hheader hdata)

/-! ## The hardware reset (R180 to R182) -/

/-- Settles O12: in both clauses the pulse is what the port serves next. -/
theorem hardwareResetAbandonsTheCommand : Obligations.HardwareResetAbandonsTheCommand := by
  refine ⟨fun s bytes inFlight rest hrx hshort => ?incomplete, fun s d data rest hd hrx => ?complete⟩
  case incomplete =>
    obtain ⟨e, hsplit⟩ := exists_splitFrame_error hshort
    exact step_of_fetch_resetPulse (hrx ▸ fetch_pulse_of_splitFrame_error inFlight rest hsplit)
  case complete => exact step_of_fetch_resetPulse (hrx ▸ fetch_pulse_in_flight rest hd)

/-- A pulse that finds the block idle abandons no command: it is a pulse behind no bytes at all. -/
theorem step_of_resetPulse {s : State} {inFlight : Bool} {rest : List PortEvent}
    (h : s.rx = .resetPulse inFlight :: rest) : step s = .next (hardwareReset s rest) :=
  step_of_fetch_resetPulse (h ▸ fetch_pulse_of_splitFrame_error (bytes := []) inFlight rest rfl)

/-- Settles O13. -/
theorem resetCommandIsNotTheHardwareReset : Obligations.ResetCommandIsNotTheHardwareReset := by
  intro s inFlight rest
  exact ⟨⟨_, exec_reset s, rfl, by simp, rfl⟩, ⟨_, step_of_resetPulse rfl, rfl, rfl, rfl⟩⟩

/-! ## The power-on state (R180) -/

theorem constructed_zero : constructed 0 = Block.powerOn := rfl

theorem powerOn_buf_toList : Block.powerOn.buf.toList = zeros 32 := rfl

/-- Settles O14: `INIT 0` constructs the power-on block, and the pulse is the hardware reset. -/
theorem powerOnState : Obligations.PowerOnState :=
  ⟨rfl, powerOn_buf_toList, rfl, rfl, rfl, step_of_rx_nil rfl,
    fun s => by rw [exec_init, constructed_zero, reset_block], fun _ _ _ hrx => step_of_resetPulse hrx⟩

/-- Settles O60. -/
theorem resetIsInStep : Obligations.ResetIsInStep := inStep_powerOn

end Sys2Proof.Proofs
